-- ==== Sys2Proof/Word.lean ====
section
/-!
DEFINITION. The word types of the block: `u64`, `u8`, bytes of a serialised request, and the 136-bit request word
(00_scope.md R7, R10; 30_encoding.md R70).
-/

namespace Sys2Proof

/-- A 64-bit pattern: operands, unsigned results, and the two's-complement pattern of signed results (R7, R10). -/
abbrev U64 := BitVec 64

/-- The 8-bit `width` input (R7): values 0 to 255 can be presented. -/
abbrev U8 := BitVec 8

/-- One byte of a serialised request (R72). -/
abbrev Byte := BitVec 8

/-- A `REQ136` request word (R70). -/
abbrev ReqWord := BitVec 136

end Sys2Proof
end

