-- ==== Sys2Proof/Machine/State.lean ====
section
/-!
DEFINITION. The state: the block's input ports and output ports (10_state.md R33, R34), and what the last unit-level
call returned. The block itself stores nothing (R30, R32, R37): no register, flag, program counter, mode or memory.
-/

namespace Sys2Proof.Machine

/-- The three input ports, taken together as one request (R33); the source's `CalculationRequest`. -/
structure Request where
  /-- `left`, 64 bits. -/
  left : U64
  /-- `right`, 64 bits. -/
  right : U64
  /-- `width`, 8 bits: the operation width, presented with the operands and not a stored mode (R32). -/
  width : U8
  deriving DecidableEq, Repr

/-- Which operand an `OperandTooLarge` names (R181, R182). -/
inductive OperandName where
  | left
  | right
  deriving DecidableEq, Repr

/-- The two validation errors and what each records (60_exceptions.md R231, R232). -/
inductive ValidationError where
  /-- `OperandTooLarge { operand_name, value, width }`. -/
  | operandTooLarge (name : OperandName) (value : U64) (width : U8)
  /-- `UnsupportedWidth { width }`. -/
  | unsupportedWidth (width : U8)
  deriving DecidableEq, Repr

/-- `ArithmeticResult { unsigned: u64, signed: i64 }` (R12); `signed` is the 64-bit two's-complement pattern. -/
structure ArithmeticResult where
  unsigned : U64
  signed : U64
  deriving DecidableEq, Repr

/-- The four condition flags of one adder evaluation, in the source's order (R35). -/
structure Flags where
  negative : Bool
  zero : Bool
  overflow : Bool
  carry : Bool
  deriving DecidableEq, Repr

/-- What one adder evaluation returns: `(ArithmeticResult, Flags)` (R78, `alu_add`). -/
structure SumOutput where
  result : ArithmeticResult
  flags : Flags
  deriving DecidableEq, Repr

/-- The six ports of one channel (R34). `none`: the port is not driven and has no value. -/
structure ChannelPorts where
  unsigned : Option U64
  signed : Option U64
  n : Option Bool
  z : Option Bool
  c : Option Bool
  v : Option Bool
  deriving DecidableEq, Repr

/-- A channel none of whose ports is driven. -/
def ChannelPorts.undriven : ChannelPorts :=
  { unsigned := none, signed := none, n := none, z := none, c := none, v := none }

/-- The output ports (R34). `none`: the port is not driven and has no value, "a model must not give it one". -/
structure Ports where
  /-- `status`, 2 bits, encoded as R74. -/
  status : Option (BitVec 2)
  /-- `err_operand`, 1 bit: 0 left, 1 right. -/
  errOperand : Option (BitVec 1)
  /-- `err_value`, 64 bits. -/
  errValue : Option U64
  /-- `err_width`, 8 bits. -/
  errWidth : Option U8
  /-- `add_unsigned`, `add_signed`, `add_n`, `add_z`, `add_c`, `add_v`. -/
  add : ChannelPorts
  /-- `sub_unsigned`, `sub_signed`, `sub_n`, `sub_z`, `sub_c`, `sub_v`. -/
  sub : ChannelPorts
  deriving DecidableEq, Repr

/-- No output port has a value: before the present request has settled (R260). -/
def Ports.undriven : Ports :=
  { status := none, errOperand := none, errValue := none, errWidth := none,
    add := ChannelPorts.undriven, sub := ChannelPorts.undriven }

/-- The MODEL's own record of what the last unit-level call (R78) or channel read (R79) returned to its caller.
DESIGN CHOICE, log 4: the units are internal and no port shows their results. -/
inductive UnitReturn where
  /-- No call or channel read has returned anything since the last CALC. -/
  | idle
  /-- `to_width` returned (R100). -/
  | masked (value : U64)
  /-- `negate` returned (R200). -/
  | negated (value : U64)
  /-- `try_new` returned `Ok` (R180). -/
  | accepted (request : Request)
  /-- `try_new` raised an error (R180). -/
  | rejected (error : ValidationError)
  /-- `alu_add` returned (R120). -/
  | sum (output : SumOutput)
  /-- `derive_flags` returned (R140). -/
  | flags (flags : Flags)
  /-- `as_signed` returned this 64-bit two's-complement pattern (R160). -/
  | signed (pattern : U64)
  /-- The channel that the pseudo-operation ADD or SUB read (R79). -/
  | channel (output : SumOutput)
  deriving DecidableEq, Repr

/-- The model faults: an evaluation that has no value (60_exceptions.md R236). -/
inductive Fault where
  /-- Raised by the postcondition check of `to_width` (R101). Safe; it cannot happen. -/
  | internalConsistency
  /-- Raised by `alu_add`, `derive_flags` and `as_signed` at width 0 or above 64 (R126, R140, R164). Safe. -/
  | unitWidthOutOfDomain
  /-- Raised by a read of an output port that has no value (R34, R236). Safe. -/
  | undrivenPortRead
  /-- Raised by a consumer that sees status 11 (U5 of 93_implementation_defined.md). DEDUCED, log 10. Safe; the block
  never drives it (R74). -/
  | reservedStatus
  deriving DecidableEq, Repr

/-- The refusals. -/
inductive Refusal where
  /-- Raised by an arm of `exec` whose operation has no meaning yet; no arm is one. Safe. -/
  | notModelled (mnemonic : String)
  deriving DecidableEq, Repr

/-- What the block's ports carry, and the last unit-level return. -/
structure State where
  /-- The input ports, which the host drives (R33, R243). -/
  inp : Request
  /-- The output ports (R34). -/
  out : Ports
  /-- The model's own field: what the last unit-level call returned (log 4). -/
  ret : UnitReturn
  deriving DecidableEq, Repr

/-- The machine before any request has settled (R260): no output port has a value. The input ports are the host's;
the spec gives them no value, and the model names 0: DESIGN CHOICE, log 2, unsafe. -/
def State.reset : State :=
  { inp := { left := 0#64, right := 0#64, width := 0#8 }
    out := Ports.undriven
    ret := UnitReturn.idle }

end Sys2Proof.Machine
end

