-- ==== Sys2Proof/Config.lean ====
section
/-!
DEFINITION. The block's parameters (00_scope.md R7, R8). Each one is fixed by the spec, so none is left open, and the
spec leaves no value of a completing operation open: this model has no free value.
-/

namespace Sys2Proof.Config

/-- `XLEN`: the datapath width of operands, results and the mask (R7). -/
abbrev xlen : Nat := 64

/-- `WMIN`: the least operation width a request may ask for (R7, R183). -/
abbrev wmin : Nat := 8

/-- `WMAX`: the greatest operation width a request may ask for (R7, R183). -/
abbrev wmax : Nat := 64

/-- The least width of the adder, the flag derivation and the sign interpreter (R8). -/
abbrev unitWmin : Nat := 1

/-- The greatest width of the adder, the flag derivation and the sign interpreter (R8). -/
abbrev unitWmax : Nat := 64

end Sys2Proof.Config
end

