-- ==== Sys2Proof/Syntax.lean ====
section
/-!
DEFINITION. The operations of the block: one constructor for each of the nine rows of spec/opcode_table.json.
-/

namespace Sys2Proof

/-- The operations. `calc` is the block's one external operation (30_encoding.md R75). `add` and `sub` are its two
channels, spelled as pseudo-operations (R79). The other six are the internal unit functions, which have typed
arguments and no bit encoding (R78). -/
inductive Instr where
  /-- CALC, R206: one evaluation of the block. -/
  | calcOp (left right : U64) (width : U8)
  /-- ADD, R203 and R79: a CALC of which the ADD channel is read. -/
  | add (left right : U64) (width : U8)
  /-- SUB, R204 and R79: a CALC of which the SUB channel is read. -/
  | sub (left right : U64) (width : U8)
  /-- TRY_NEW, R180: the validation stage. -/
  | tryNew (left right : U64) (width : U8)
  /-- TO_WIDTH, R100: the width mask unit. -/
  | toWidth (value : U64) (width : U8)
  /-- NEGATE, R200: the two's-complement negator. -/
  | negate (right : U64) (width : U8)
  /-- ALU_ADD, R120: the bit-serial ripple-carry adder. -/
  | aluAdd (left right : U64) (width : U8)
  /-- DERIVE_FLAGS, R140: the flag derivation unit. -/
  | deriveFlags (result : U64) (carry previousCarry : Bool) (width : U8)
  /-- AS_SIGNED, R160: the sign interpreter. -/
  | asSigned (value : U64) (width : U8)
  deriving DecidableEq, Repr

end Sys2Proof
end

