-- ==== Sys2Proof/WellFormed.lean ====
section
/-!
DEFINITION. Which operation terms are well formed, and which requests are valid.
A request with an invalid width or operand is a well-formed CALC: it has an effect, the error report (R76). A unit
function is well formed when its operands lie in the domain its rule gives (R8, R126, R140, R164).
-/

namespace Sys2Proof

/-- `1 ≤ width ≤ 64`: the domain of the adder, the flag derivation and the sign interpreter (R8). -/
def widthInUnitDomain (width : U8) : Bool :=
  decide (Config.unitWmin ≤ width.toNat) && decide (width.toNat ≤ Config.unitWmax)

/-- The value lies below `2^width`, as a mathematical integer (R185). -/
def fitsWidth (value : U64) (width : U8) : Bool :=
  decide (value.toNat < 2 ^ width.toNat)

/-- The `CalculationRequest` invariant of R183: `0 ≤ left, right ≤ 2^width − 1` and `8 ≤ width ≤ 64`. -/
def requestValid (left right : U64) (width : U8) : Bool :=
  fitsWidth left width && fitsWidth right width &&
    decide (Config.wmin ≤ width.toNat) && decide (width.toNat ≤ Config.wmax)

/-- The operands lie in the domain the operation's rule gives them. -/
def Instr.wellFormed : Instr → Bool
  | .calcOp _ _ _ => true
  | .add _ _ _ => true
  | .sub _ _ _ => true
  | .tryNew _ _ _ => true
  | .toWidth _ _ => true
  | .negate _ _ => true
  | .aluAdd _ _ width => widthInUnitDomain width
  | .deriveFlags result _ _ width => widthInUnitDomain width && fitsWidth result width
  | .asSigned _ width => widthInUnitDomain width

/-- The operation has a `REQ136` encoding (R75); the unit functions have none (R78). -/
def Instr.hasEncoding : Instr → Bool
  | .calcOp _ _ _ => true
  | .add _ _ _ => true
  | .sub _ _ _ => true
  | .tryNew _ _ _ => false
  | .toWidth _ _ => false
  | .negate _ _ => false
  | .aluAdd _ _ _ => false
  | .deriveFlags _ _ _ _ => false
  | .asSigned _ _ => false

end Sys2Proof
end

