-- ==== Sys2Proof/Machine/Operands.lean ====
section
/-!
DEFINITION. Operand forms and bit fields: the bits, masks, zero counts and bounds that the units' rules are written
with (00_scope.md R9, R10).
-/

namespace Sys2Proof.Machine

/-- `v[i]`, bit `i` of a 64-bit value, bit 0 the least significant (R9, R10); read only where `i < 64`. -/
abbrev bitAt (v : U64) (i : Nat) : Bool := v.getLsbD i

/-- A bit as the integer 0 or 1 that the adder sums (R10, R120). -/
def bitNat (b : Bool) : Nat := if b then 1 else 0

/-- The single-bit extractor mask `2^i`, shifted left once for each position (R120). -/
def extractor (i : Nat) : U64 := 1#64 <<< i

/-- The width mask: all 64 bits when `width ≥ 64`, else `2^width − 1` (R100). -/
def widthMask (width : U8) : U64 :=
  if Config.xlen ≤ width.toNat then BitVec.allOnes 64 else BitVec.ofNat 64 (2 ^ width.toNat - 1)

/-- Leading zero bits of the low `n` bits of `v`, from bit `n − 1` down. -/
def leadingZerosBelow (v : U64) : Nat → Nat
  | 0 => 0
  | n + 1 => if bitAt v n then 0 else leadingZerosBelow v n + 1

/-- `lzc(v)`: the leading zero bits of a 64-bit value, from bit 63 down; `lzc(0) = 64` (R10). -/
def lzc (v : U64) : Nat := leadingZerosBelow v 64

/-- The bits a value occupies, `64 − lzc(value)` (R160). -/
def significantBits (v : U64) : Nat := 64 - lzc v

/-- The mask of every bit at or above position `sig`; 0 when `sig = 64` (R160). -/
def maskFrom (sig : Nat) : U64 :=
  if sig = 64 then 0#64 else ~~~(BitVec.ofNat 64 (2 ^ sig - 1))

/-- `value > 2^width − 1`, the bound a mathematical integer (R181, R185). -/
def exceedsWidth (value : U64) (width : U8) : Bool :=
  decide (2 ^ width.toNat - 1 < value.toNat)

/-- `width > 64` or `width < 8` (R183). -/
def unsupportedWidth (width : U8) : Bool :=
  decide (Config.wmax < width.toNat) || decide (width.toNat < Config.wmin)

/-- `width = 0` or `width > 64`: where the adder, the flag derivation and the sign interpreter have no value
(R126, R140, R164). -/
def outsideUnitDomain (width : U8) : Bool :=
  decide (width.toNat < Config.unitWmin) || decide (Config.unitWmax < width.toNat)

end Sys2Proof.Machine
end

