-- ==== Sys2Proof/Machine/Flags.lean ====
section
/-!
DEFINITION. The flag derivation unit (43_flag_derivation_unit.md R140 to R144).
-/

namespace Sys2Proof.Machine

/-- `negative = result[w−1]`, the MSB of the `w`-bit result (R141). -/
def negativeFlag (result : U64) (width : U8) : Bool := bitAt result (width.toNat - 1)

/-- `zero = 1 iff result = 0`, over all 64 bits (R142). -/
def zeroFlag (result : U64) : Bool := decide (result = 0#64)

/-- `overflow = c[w] XOR c[w−1]` (R143). -/
def overflowFlag (carry previousCarry : Bool) : Bool := carry ^^ previousCarry

/-- `derive_flags(result, carry, previous_carry, width)`: all four flags, on every evaluation (R140); at widths
outside 1..64 the evaluation has no value (R126). A result with bits at or above the width is read literally:
DEDUCED, log 9. -/
def deriveFlags (result : U64) (carry previousCarry : Bool) (width : U8) : Except Fault Flags :=
  if outsideUnitDomain width then .error .unitWidthOutOfDomain
  else .ok
    { negative := negativeFlag result width
      zero := zeroFlag result
      overflow := overflowFlag carry previousCarry
      carry := carry }

end Sys2Proof.Machine
end

