-- ==== Sys2Proof/Machine/Ops.lean ====
section
/-!
DEFINITION. The named operations on ports: presenting a request, driving the outputs, reporting an error, and a
consumer's reads. Reporting an error is the block's only exceptional outcome (60_exceptions.md R230); it saves no
state and has no return operation (R230, R235).
-/

namespace Sys2Proof.Machine

/-- `status = 00`: both channels are driven (30_encoding.md R74). -/
def statusOk : BitVec 2 := 0b00#2

/-- `status = 01`: OperandTooLarge (R74, R231). -/
def statusOperandTooLarge : BitVec 2 := 0b01#2

/-- `status = 10`: UnsupportedWidth (R74, R232). -/
def statusUnsupportedWidth : BitVec 2 := 0b10#2

/-- `status = 11`: reserved; the block never drives it (R74). -/
def statusReserved : BitVec 2 := 0b11#2

/-- `err_operand`: 0 left, 1 right (R34). -/
def OperandName.code : OperandName → BitVec 1
  | .left => 0#1
  | .right => 1#1

/-- REPORTING AN ERROR: the one exceptional outcome, shared by both error kinds. The status and the error's record are
driven and no other port is (R206, R230, R231, R232). -/
def Ports.reportError : ValidationError → Ports
  | .operandTooLarge name value width =>
    { Ports.undriven with
      status := some statusOperandTooLarge
      errOperand := some name.code
      errValue := some value
      errWidth := some width }
  | .unsupportedWidth width =>
    { Ports.undriven with
      status := some statusUnsupportedWidth
      errWidth := some width }

/-- The six ports of a channel, driven by one adder evaluation (R203, R204). -/
def ChannelPorts.drive (o : SumOutput) : ChannelPorts :=
  { unsigned := some o.result.unsigned
    signed := some o.result.signed
    n := some o.flags.negative
    z := some o.flags.zero
    c := some o.flags.carry
    v := some o.flags.overflow }

/-- `out.status <- 00`, and no error port driven (R206). -/
def Ports.okStatus : Ports := { Ports.undriven with status := some statusOk }

/-- Drive the ADD channel's ports (R203). -/
def Ports.driveAdd (p : Ports) (o : SumOutput) : Ports := { p with add := ChannelPorts.drive o }

/-- Drive the SUB channel's ports (R204). -/
def Ports.driveSub (p : Ports) (o : SumOutput) : Ports := { p with sub := ChannelPorts.drive o }

/-- A consumer's read of one port: a port that is not driven has no value, and reading it is a fault (R34, R236). -/
def readDriven {α : Type} : Option α → Except Fault α
  | some v => .ok v
  | none => .error .undrivenPortRead

/-- The sixteen output ports by name (R34). -/
inductive Port where
  | status
  | errOperand
  | errValue
  | errWidth
  | addUnsigned
  | addSigned
  | addN
  | addZ
  | addC
  | addV
  | subUnsigned
  | subSigned
  | subN
  | subZ
  | subC
  | subV
  deriving DecidableEq, Repr

/-- The width of each output port (R34). -/
def Port.width : Port → Nat
  | .status => 2
  | .errOperand => 1
  | .errValue => 64
  | .errWidth => 8
  | .addUnsigned => 64
  | .addSigned => 64
  | .addN => 1
  | .addZ => 1
  | .addC => 1
  | .addV => 1
  | .subUnsigned => 64
  | .subSigned => 64
  | .subN => 1
  | .subZ => 1
  | .subC => 1
  | .subV => 1

/-- What one output port carries, `none` where it is not driven (R34). -/
def Ports.value (o : Ports) : (p : Port) → Option (BitVec p.width)
  | .status => o.status
  | .errOperand => o.errOperand
  | .errValue => o.errValue
  | .errWidth => o.errWidth
  | .addUnsigned => o.add.unsigned
  | .addSigned => o.add.signed
  | .addN => o.add.n.map BitVec.ofBool
  | .addZ => o.add.z.map BitVec.ofBool
  | .addC => o.add.c.map BitVec.ofBool
  | .addV => o.add.v.map BitVec.ofBool
  | .subUnsigned => o.sub.unsigned
  | .subSigned => o.sub.signed
  | .subN => o.sub.n.map BitVec.ofBool
  | .subZ => o.sub.z.map BitVec.ofBool
  | .subC => o.sub.c.map BitVec.ofBool
  | .subV => o.sub.v.map BitVec.ofBool

/-- A consumer's read of one output port by name (R34, R236, R243). -/
def Ports.read (o : Ports) (p : Port) : Except Fault (BitVec p.width) := readDriven (o.value p)

/-- The three outcomes that `status` encodes (R74). -/
inductive Status where
  | ok
  | operandTooLarge
  | unsupportedWidth
  deriving DecidableEq, Repr

/-- A consumer's reading of a status code (R74); the reserved code is a fault (U5 of 93_implementation_defined.md). -/
def Status.ofCode (code : BitVec 2) : Except Fault Status :=
  if code = statusOk then .ok .ok
  else if code = statusOperandTooLarge then .ok .operandTooLarge
  else if code = statusUnsupportedWidth then .ok .unsupportedWidth
  else .error .reservedStatus

/-- A consumer reads the status port and its meaning (R74, R243). -/
def Ports.readStatus (o : Ports) : Except Fault Status :=
  match readDriven o.status with
  | .error f => .error f
  | .ok code => Status.ofCode code

/-- A consumer reads all six ports of a channel (R79). -/
def ChannelPorts.read (c : ChannelPorts) : Except Fault SumOutput := do
  let u ← readDriven c.unsigned
  let sg ← readDriven c.signed
  let n ← readDriven c.n
  let z ← readDriven c.z
  let cy ← readDriven c.c
  let v ← readDriven c.v
  .ok { result := { unsigned := u, signed := sg },
        flags := { negative := n, zero := z, overflow := v, carry := cy } }

/-- The host presents a request: the three input ports together (R243). From then until the request has settled no
output has a value (R260). DEDUCED, log 3. -/
def State.present (s : State) (q : Request) : State :=
  { s with inp := q, out := Ports.undriven }

/-- A unit-level call returns to its caller, or its evaluation has no value (R78, R236). No port changes. -/
def State.returns (s : State) : Except Fault UnitReturn → Host.Outcome State Fault Refusal
  | .ok r => .next { s with ret := r }
  | .error f => .fault f

end Sys2Proof.Machine
end

