-- ==== Sys2Proof/Machine/Sign.lean ====
section
/-!
DEFINITION. The sign interpreter (44_sign_interpreter.md R160 to R164).
-/

namespace Sys2Proof.Machine

/-- `as_signed(value, width)`, the source's algorithm literally (R160, R163): the 64-bit two's-complement pattern. -/
def asSigned (value : U64) (width : U8) : Except Fault U64 :=
  if outsideUnitDomain width then .error .unitWidthOutOfDomain
  else if bitAt value (width.toNat - 1) then .ok (value ||| maskFrom (significantBits value))
  else .ok value

/-- AS_SIGNED (R160): the pattern is returned; no flag and no port changes. -/
def execAsSigned (value : U64) (width : U8) (s : State) : Host.Outcome State Fault Refusal :=
  s.returns ((asSigned value width).map .signed)

end Sys2Proof.Machine
end

