-- ==== Sys2Proof/Machine/Adder.lean ====
section
/-!
DEFINITION. The ripple-carry adder, bit by bit as R120 gives it (42_ripple_carry_adder.md), and the flag unit's own
operation.
-/

namespace Sys2Proof.Machine

/-- The variables of the loop of R120. `previousCarry` is unassigned before the first position: DEDUCED, log 20. -/
structure AdderLoop where
  carry : Bool
  result : U64
  previousCarry : Option Bool
  deriving DecidableEq, Repr

/-- Step 1 of R120: `carry = false`, `result = 0`. -/
def AdderLoop.start : AdderLoop := { carry := false, result := 0#64, previousCarry := none }

/-- `bit_sum = carry + li + ri`, an integer 0 to 3 (R120 step 2). -/
def bitSum (carry li ri : Bool) : Nat := bitNat carry + bitNat li + bitNat ri

/-- Steps 2 and 3 of R120 at position `i`. -/
def AdderLoop.visit (a : AdderLoop) (left right : U64) (i : Nat) : AdderLoop :=
  let sum := bitSum a.carry (bitAt left i) (bitAt right i)
  { carry := decide (2 ≤ sum)
    result := if sum % 2 = 1 then a.result ||| extractor i else a.result
    previousCarry := some a.carry }

/-- The loop of R120 after positions `0 .. n−1`. -/
def adderLoop (left right : U64) : Nat → AdderLoop
  | 0 => AdderLoop.start
  | n + 1 => (adderLoop left right n).visit left right n

/-- `alu_add(left, right, width)` (R120); at widths outside 1..64 the evaluation has no value (R126). -/
def aluAdd (left right : U64) (width : U8) : Except Fault SumOutput :=
  if outsideUnitDomain width then .error .unitWidthOutOfDomain
  else
    let a := adderLoop left right width.toNat
    match a.previousCarry with
    | none => .error .unitWidthOutOfDomain
    | some previousCarry => do
      let flags ← deriveFlags a.result a.carry previousCarry width
      let signed ← asSigned a.result width
      .ok { result := { unsigned := a.result, signed := signed }, flags := flags }

/-- ALU_ADD (R120): the sum and its flags are returned; no port changes. -/
def execAluAdd (left right : U64) (width : U8) (s : State) : Host.Outcome State Fault Refusal :=
  s.returns ((aluAdd left right width).map .sum)

/-- DERIVE_FLAGS (R140): the four flags are returned; no port changes. -/
def execDeriveFlags (result : U64) (carry previousCarry : Bool) (width : U8) (s : State) :
    Host.Outcome State Fault Refusal :=
  s.returns ((deriveFlags result carry previousCarry width).map .flags)

end Sys2Proof.Machine
end

