-- ==== Sys2Proof/Machine/Mask.lean ====
section
/-!
DEFINITION. The width mask unit (41_width_mask_unit.md R100 to R102).
-/

namespace Sys2Proof.Machine

/-- `to_width(value, width)` (R100), with the postcondition check `r ≤ 2^width − 1` that R101 lets a model keep. -/
def toWidth (value : U64) (width : U8) : Except Fault U64 :=
  let r := value &&& widthMask width
  if r.toNat ≤ 2 ^ width.toNat - 1 then .ok r else .error .internalConsistency

/-- TO_WIDTH (R100): the masked value is returned; no flag and no port changes. -/
def execToWidth (value : U64) (width : U8) (s : State) : Host.Outcome State Fault Refusal :=
  s.returns ((toWidth value width).map .masked)

end Sys2Proof.Machine
end

