-- ==== Sys2Proof/Machine/Negate.lean ====
section
/-!
DEFINITION. The two's-complement negator (46_negator_and_calc.md R200 to R202).
-/

namespace Sys2Proof.Machine

/-- `(~right) + 1`, 64-bit and wrapping (R200, R201). -/
def negate64 (right : U64) : U64 := ~~~right + 1#64

/-- `negate(right, width)`: the wrapped negation masked to `width` bits (R200). -/
def negate (right : U64) (width : U8) : Except Fault U64 := toWidth (negate64 right) width

/-- NEGATE (R200): the negation is returned; no flag and no port changes. -/
def execNegate (right : U64) (width : U8) (s : State) : Host.Outcome State Fault Refusal :=
  s.returns ((negate right width).map .negated)

end Sys2Proof.Machine
end

