-- ==== Sys2Proof/Machine/Validate.lean ====
section
/-!
DEFINITION. Request validation (45_request_validation.md R180 to R185).
-/

namespace Sys2Proof.Machine

/-- `try_new(left, right, width)`: left operand, right operand, width; the first failure decides (R180 to R184). -/
def tryNew (q : Request) : Except ValidationError Request :=
  if exceedsWidth q.left q.width then .error (.operandTooLarge .left q.left q.width)
  else if exceedsWidth q.right q.width then .error (.operandTooLarge .right q.right q.width)
  else if unsupportedWidth q.width then .error (.unsupportedWidth q.width)
  else .ok q

/-- `Result<CalculationRequest, ValidationError>` as the caller of the unit gets it (R78). -/
def validationReturn : Except ValidationError Request → UnitReturn
  | .ok q => .accepted q
  | .error e => .rejected e

/-- TRY_NEW (R180): the result is returned to the caller. Called as a unit it drives no port; CALC drives the ports
from it (R206). DEDUCED, log 16. -/
def execTryNew (left right : U64) (width : U8) (s : State) : Host.Outcome State Fault Refusal :=
  s.returns (.ok (validationReturn (tryNew { left := left, right := right, width := width })))

end Sys2Proof.Machine
end

