-- ==== Sys2Proof/Machine/Calc.lean ====
section
/-!
DEFINITION. The CALC operation and its two channels (46_negator_and_calc.md R203 to R206).
-/

namespace Sys2Proof.Machine

/-- The ADD channel of a validated request: the original operands (R203). -/
def addChannel (q : Request) : Except Fault SumOutput := aluAdd q.left q.right q.width

/-- The SUB channel of a validated request: the negated right operand, through the same adder (R204). -/
def subChannel (q : Request) : Except Fault SumOutput := do
  let nr ← negate q.right q.width
  aluAdd q.left nr q.width

/-- The outputs of one evaluation (R206): the error report of a rejected request, or status 00 and both channels. -/
def calcPorts (q : Request) : Except Fault Ports :=
  match tryNew q with
  | .error e => .ok (Ports.reportError e)
  | .ok v => do
    let a ← addChannel v
    let b ← subChannel v
    .ok ((Ports.okStatus.driveAdd a).driveSub b)

/-- A consumer that keeps the host duty of R243: it reads the status and, only under `00`, the channel (R79).
Under an error it reads no channel port: DEDUCED, log 5. -/
def readChannelIfOk (o : Ports) (c : ChannelPorts) : Except Fault UnitReturn :=
  match o.readStatus with
  | .error f => .error f
  | .ok .ok => c.read.map .channel
  | .ok .operandTooLarge => .ok .idle
  | .ok .unsupportedWidth => .ok .idle

/-- One evaluation of a request as one indivisible step (R263): the request stands on the input ports, the outputs
follow it, and `after` is what its consumer then reads. -/
def State.evaluate (s : State) (q : Request) (after : Ports → Except Fault UnitReturn) :
    Host.Outcome State Fault Refusal :=
  match calcPorts q with
  | .error f => .fault f
  | .ok o => ({ s.present q with out := o }).returns (after o)

/-- CALC (R206). Nothing is left of an earlier unit-level return: DESIGN CHOICE, log 12. -/
def execCalc (left right : U64) (width : U8) (s : State) : Host.Outcome State Fault Refusal :=
  s.evaluate { left := left, right := right, width := width } (fun _ => .ok .idle)

/-- ADD (R203, R79): the CALC of the same request, then a read of the ADD channel. -/
def execAdd (left right : U64) (width : U8) (s : State) : Host.Outcome State Fault Refusal :=
  s.evaluate { left := left, right := right, width := width } (fun o => readChannelIfOk o o.add)

/-- SUB (R204, R79): the CALC of the same request, then a read of the SUB channel. -/
def execSub (left right : U64) (width : U8) (s : State) : Host.Outcome State Fault Refusal :=
  s.evaluate { left := left, right := right, width := width } (fun o => readChannelIfOk o o.sub)

end Sys2Proof.Machine
end

