-- ==== Sys2Proof/Machine/Dispatch.lean ====
section
/-! DEFINITION. The dispatch: one arm per operation. -/

namespace Sys2Proof.Machine

def exec (i : Instr) (s : State) : Host.Outcome State Fault Refusal :=
  match i with
  | .calcOp left right width => Sys2Proof.Machine.execCalc left right width s
  | .add left right width => Sys2Proof.Machine.execAdd left right width s
  | .sub left right width => Sys2Proof.Machine.execSub left right width s
  | .tryNew left right width => Sys2Proof.Machine.execTryNew left right width s
  | .toWidth value width => Sys2Proof.Machine.execToWidth value width s
  | .negate right width => Sys2Proof.Machine.execNegate right width s
  | .aluAdd left right width => Sys2Proof.Machine.execAluAdd left right width s
  | .deriveFlags result carry previousCarry width => Sys2Proof.Machine.execDeriveFlags result carry previousCarry width s
  | .asSigned value width => Sys2Proof.Machine.execAsSigned value width s

end Sys2Proof.Machine
end

