-- ==== Sys2Proof/Decode.lean ====
section
/-!
DEFINITION. The `REQ136` format: its fields, its serialisation, the decoder, and the encoder after it
(30_encoding.md R70 to R77).
-/

namespace Sys2Proof

/-- Why a byte string is not a request: there is one instruction length, 136 bits (R77), 17 bytes (R72). -/
inductive DecodeReject where
  /-- Fewer than 17 bytes. -/
  | tooShort (bytes : Nat)
  /-- More than 17 bytes. -/
  | tooLong (bytes : Nat)
  deriving DecidableEq, Repr

/-- The length of a serialised request in bytes (R72). -/
def reqBytes : Nat := 17

/-- Field `L`, bits 63:0 (R71). -/
def reqLeft (word : ReqWord) : U64 := word.extractLsb' 0 64

/-- Field `R`, bits 127:64 (R71). -/
def reqRight (word : ReqWord) : U64 := word.extractLsb' 64 64

/-- Field `W`, bits 135:128 (R71). -/
def reqWidth (word : ReqWord) : U8 := word.extractLsb' 128 8

/-- Every 136-bit word is a CALC request: match 0, mask 0 (R75). -/
def decodeWord (word : ReqWord) : Instr :=
  .calcOp (reqLeft word) (reqRight word) (reqWidth word)

/-- The number whose bytes are listed, least significant byte first. -/
def leValue : List Byte → Nat
  | [] => 0
  | b :: bs => b.toNat + 256 * leValue bs

/-- The `n` low bytes of a number, least significant byte first. -/
def leBytes : Nat → Nat → List Byte
  | 0, _ => []
  | n + 1, v => BitVec.ofNat 8 v :: leBytes n (v / 256)

/-- The decoder: 17 bytes are a CALC request, and a byte string of any other length is rejected (R72, R75, R77). -/
def decode (bytes : List Byte) : Except DecodeReject Instr :=
  if bytes.length < reqBytes then .error (.tooShort bytes.length)
  else if reqBytes < bytes.length then .error (.tooLong bytes.length)
  else .ok (decodeWord (BitVec.ofNat 136 (leValue bytes)))

/-- The request word of three fields, as its pattern is written: `W`, then `R`, then `L`, high bits first (R71). -/
def reqWord (left right : U64) (width : U8) : ReqWord :=
  width ++ right ++ left

/-- The 17 bytes of a request: bytes 0-7 `left`, bytes 8-15 `right`, each least significant byte first; byte 16
`width` (R72). -/
def reqSerialise (left right : U64) (width : U8) : List Byte :=
  leBytes 8 left.toNat ++ leBytes 8 right.toNat ++ [width]

/-- The request word of an operation that has one; ADD and SUB are spelled with the word of their CALC (R75, R79). -/
def encodeWord : Instr → Option ReqWord
  | .calcOp left right width => some (reqWord left right width)
  | .add left right width => some (reqWord left right width)
  | .sub left right width => some (reqWord left right width)
  | .tryNew _ _ _ => none
  | .toWidth _ _ => none
  | .negate _ _ => none
  | .aluAdd _ _ _ => none
  | .deriveFlags _ _ _ _ => none
  | .asSigned _ _ => none

/-- The encoder: the bytes of an operation that has an encoding (R72, R75, R78). -/
def encode : Instr → Option (List Byte)
  | .calcOp left right width => some (reqSerialise left right width)
  | .add left right width => some (reqSerialise left right width)
  | .sub left right width => some (reqSerialise left right width)
  | .tryNew _ _ _ => none
  | .toWidth _ _ => none
  | .negate _ _ => none
  | .aluAdd _ _ _ => none
  | .deriveFlags _ _ _ _ => none
  | .asSigned _ _ => none

/-- The operation the block performs for an operation's word: the CALC that the pseudo-operations ADD and SUB expand
to (R79), and every other operation itself. -/
def Instr.canon : Instr → Instr
  | .calcOp left right width => .calcOp left right width
  | .add left right width => .calcOp left right width
  | .sub left right width => .calcOp left right width
  | .tryNew left right width => .tryNew left right width
  | .toWidth value width => .toWidth value width
  | .negate right width => .negate right width
  | .aluAdd left right width => .aluAdd left right width
  | .deriveFlags result carry previousCarry width => .deriveFlags result carry previousCarry width
  | .asSigned value width => .asSigned value width

/-- The bytes of a table word of `nbits` bits, every bit above `nbits` 0: 17 bytes, or as many as `nbits` needs where
it is longer than a request. DESIGN CHOICE, log 14; safe: a longer word is rejected. -/
def tableBytes (nbits w : Nat) : List Byte :=
  leBytes (max reqBytes ((nbits + 7) / 8)) (w % 2 ^ nbits)

/-- What the decoder reads from a word numbered as spec/opcode_table.json numbers its bits. -/
def decodeTableWord (nbits w : Nat) : Option Instr :=
  match decode (tableBytes nbits w) with
  | .ok i => some i
  | .error _ => none

end Sys2Proof
end

