-- ==== Sys2Proof/Machine/Fetch.lean ====
section
/-!
DEFINITION. Where the block's one operation comes from: the request word on the input ports. The block has no program
counter and fetches nothing (10_state.md R31); the host presents each request (60_exceptions.md R243).
-/

namespace Sys2Proof.Machine

/-- The `REQ136` word that stands on the input ports (R70, R71). -/
def presentedWord (q : Request) : ReqWord := reqWord q.left q.right q.width

/-- The 17 bytes of the request on the input ports (R72). -/
def presentedBytes (q : Request) : List Byte := reqSerialise q.left q.right q.width

/-- The request whose word this is (R71). -/
def requestOfWord (word : ReqWord) : Request :=
  { left := reqLeft word, right := reqRight word, width := reqWidth word }

/-- The request word of a table word: its low `nbits` bits, every bit above 0. DESIGN CHOICE, log 14. -/
def tableWord (nbits w : Nat) : ReqWord := BitVec.ofNat 136 (w % 2 ^ nbits)

end Sys2Proof.Machine
end

