-- ==== Sys2Proof/Machine/Step.lean ====
section
/-!
DEFINITION. The step: the request on the input ports is evaluated, as one indivisible step (R263).
-/

namespace Sys2Proof.Machine

/-- One step: the operation of the request word on the input ports. Every word is one (R75), so nothing is undecodable
and nothing stands around `exec`. -/
def step (s : State) : Host.Outcome State Fault Refusal :=
  exec (decodeWord (presentedWord s.inp)) s

/-- The host presents the request of a table word (R243), so that the next step evaluates it; log 7. -/
def State.withFetchWord (s : State) (nbits w : Nat) : State :=
  s.present (requestOfWord (tableWord nbits w))

end Sys2Proof.Machine
end

