-- ==== Sys2Proof/Safety.lean ====
section
/-!
DEFINITION. What claims are stated in: which ports a status drives, what legal outputs are, and that the outputs belong
to the request on the input ports.
-/

namespace Sys2Proof.Machine

/-- The "driven when" column of R34. -/
def Port.drivenUnder (status : BitVec 2) : Port → Bool
  | .status => true
  | .errOperand => decide (status = statusOperandTooLarge)
  | .errValue => decide (status = statusOperandTooLarge)
  | .errWidth => decide (status = statusOperandTooLarge) || decide (status = statusUnsupportedWidth)
  | .addUnsigned => decide (status = statusOk)
  | .addSigned => decide (status = statusOk)
  | .addN => decide (status = statusOk)
  | .addZ => decide (status = statusOk)
  | .addC => decide (status = statusOk)
  | .addV => decide (status = statusOk)
  | .subUnsigned => decide (status = statusOk)
  | .subSigned => decide (status = statusOk)
  | .subN => decide (status = statusOk)
  | .subZ => decide (status = statusOk)
  | .subC => decide (status = statusOk)
  | .subV => decide (status = statusOk)

/-- The outputs keep the port table of R34: the status is driven and is not the reserved code, and every port has a
value exactly when that status drives it. -/
def Ports.KeepsTable (o : Ports) : Prop :=
  ∃ status, o.status = some status ∧ status ≠ statusReserved ∧
    ∀ p : Port, (o.value p).isSome = p.drivenUnder status

/-- The outputs belong to the request on the input ports (R260): none has a value yet, or all are what one evaluation
of it gives. -/
def State.OutputsFollowInputs (s : State) : Prop :=
  s.out = Ports.undriven ∨ calcPorts s.inp = .ok s.out

/-- The invariant every operation keeps: the outputs keep the port table or have no value yet, they belong to the
request on the input ports, and a request that validation has accepted is a valid one (R183). -/
structure State.Inv (s : State) : Prop where
  table : s.out = Ports.undriven ∨ s.out.KeepsTable
  follows : s.OutputsFollowInputs
  accepted : ∀ q : Request, s.ret = .accepted q → requestValid q.left q.right q.width = true

/-- A safe run step: it answers a next state. -/
def StepIsSafe (s : State) : Prop := ∃ t, step s = .next t

end Sys2Proof.Machine
end

