-- ==== Sys2Proof/Certificates/Slice0/Obligations.lean ====
section
/-!
DEFINITION. The statements for the provers. A statement about every state holds in states that no run reaches. Widths
are read as numbers, `width.toNat`; a `w`-bit reading of a 64-bit value is `BitVec.setWidth w`. `State.ret` is the
model's own record of what a unit-level call returned (log 4): a statement of a unit function's result reads it there.
-/

open Sys2Proof Sys2Proof.Machine

/-! ### Encoding -/

/-- 30_encoding.md R72: the 17 bytes of a request, in the order the rule gives them. -/
def Obligations.SerialisedRequestIsLittleEndianByField : Prop :=
  ∀ (left right : U64) (width : U8), ∃ bytes : List Byte,
    encode (.calcOp left right width) = some bytes ∧ bytes.length = 17 ∧
      (∀ k, k < 8 → bytes[k]? = some (left.extractLsb' (8 * k) 8)) ∧
      (∀ k, k < 8 → bytes[8 + k]? = some (right.extractLsb' (8 * k) 8)) ∧
      bytes[16]? = some width

/-- 30_encoding.md section 1 and R75: every 136-bit word, given as its 17 bytes with the low byte first, is the CALC of
its bits 63:0, 127:64 and 135:128. -/
def Obligations.EveryWordDecodesToTheCalcOfItsFields : Prop :=
  ∀ word : ReqWord, ∃ (left right : U64) (width : U8),
    decode ((List.range 17).map fun k => word.extractLsb' (8 * k) 8) = .ok (.calcOp left right width) ∧
      (∀ i, i < 64 → left.getLsbD i = word.getLsbD i) ∧
      (∀ i, i < 64 → right.getLsbD i = word.getLsbD (64 + i)) ∧
      (∀ i, i < 8 → width.getLsbD i = word.getLsbD (128 + i))

/-- 30_encoding.md R71, R72, R75, R79: decoding an encoding gives the CALC back with every operand, and the words of
the pseudo-operations ADD and SUB are those of their CALC. The unit functions have no encoding (R78). -/
def Obligations.DecodeOfEncodeGivesTheCalcBack : Prop :=
  ∀ i : Instr,
    (∀ bytes, encode i = some bytes → decode bytes = .ok i.canon) ∧
      ((encode i).isSome = true ↔ ∃ left right width,
        i = .calcOp left right width ∨ i = .add left right width ∨ i = .sub left right width) ∧
      (∀ left right width,
        (i = .calcOp left right width ∨ i = .add left right width ∨ i = .sub left right width) →
          i.canon = .calcOp left right width)

/-- 30_encoding.md R72: each byte string has one meaning, so encoding what was decoded gives the bytes back. -/
def Obligations.EncodeOfDecodeGivesTheBytesBack : Prop :=
  ∀ (bytes : List Byte) (i : Instr), decode bytes = .ok i → encode i = some bytes

/-- 30_encoding.md sections 1 and 2: there is one instruction length, 136 bits, which is 17 bytes. That a byte string of
any other length is rejected by name is the model's deduction (log 11). -/
def Obligations.DecoderTakesOneLengthOnly : Prop :=
  ∀ bytes : List Byte,
    (bytes.length < 17 → decode bytes = .error (.tooShort bytes.length)) ∧
      (17 < bytes.length → decode bytes = .error (.tooLong bytes.length)) ∧
      (bytes.length = 17 → ∃ left right width, decode bytes = .ok (.calcOp left right width))

/-- 30_encoding.md R71: words written out from the layout (the hex spellings of 95_test_vectors.md F-CALC and F-VAL). -/
def Obligations.WrittenOutWordsDecode : Prop :=
  decodeTableWord 136 0x080000000000000001_00000000000000FF = some (.calcOp 255#64 1#64 8#8) ∧
    decodeTableWord 136 0x10000000000000ABCD_0000000000001234 = some (.calcOp 0x1234#64 0xABCD#64 16#8) ∧
    decodeTableWord 136 0x408000000000000000_0000000000000000 = some (.calcOp 0#64 0x8000000000000000#64 64#8) ∧
    decodeTableWord 136 0xFF0000000000000000_FFFFFFFFFFFFFFFF = some (.calcOp 0xFFFFFFFFFFFFFFFF#64 0#64 255#8)

/-! ### The step -/

/-- 30_encoding.md R75, 46_negator_and_calc.md R206: a step evaluates the request whose bytes stand on the input ports,
and those bytes always decode; nothing stands around `exec`. -/
def Obligations.StepRunsTheRequestOnTheInputPorts : Prop :=
  ∀ s : State,
    (∀ i, decode (presentedBytes s.inp) = .ok i → step s = exec i s) ∧
      decode (presentedBytes s.inp) = .ok (.calcOp s.inp.left s.inp.right s.inp.width)

/-- 60_exceptions.md R243 and the model's log 7: the step after a table word is placed runs the operation the decoder
reads from that word, and placing it takes every output's value away. -/
def Obligations.PlacedWordIsEvaluatedNext : Prop :=
  ∀ (s : State) (nbits w : Nat) (i : Instr), nbits ≤ 136 → decodeTableWord nbits w = some i →
    step (s.withFetchWord nbits w) = exec i (s.withFetchWord nbits w) ∧
      (s.withFetchWord nbits w).out = Ports.undriven ∧ (s.withFetchWord nbits w).ret = s.ret

/-- 46_negator_and_calc.md section 2, "All computation inside `calc()` is total", and R205: CALC and its two channel
forms answer a next state at every request in every state, and so does every step. That ADD and SUB answer one on an
invalid request is the model's reading (log 5): the letter of 30_encoding.md R79 would be the fault UndrivenPortRead. -/
def Obligations.EvaluationNeverStops : Prop :=
  (∀ (left right : U64) (width : U8) (s : State),
    (∃ t, exec (.calcOp left right width) s = .next t) ∧ (∃ t, exec (.add left right width) s = .next t) ∧
      ∃ t, exec (.sub left right width) s = .next t) ∧
    ∀ s : State, StepIsSafe s

/-- 10_state.md R31: equal inputs give equal outputs, whatever came before: the whole state after a step is a function
of the request on the input ports. -/
def Obligations.StepDependsOnTheRequestAlone : Prop :=
  ∀ s t : State, s.inp = t.inp → step s = step t

/-- 70_reset_and_hazards.md R264: a repeated request gives the same outputs, and a request's outcome is the same
whatever request was evaluated before it. -/
def Obligations.RequestsAreIndependentAndIdempotent : Prop :=
  ∀ s t : State, step s = .next t →
    step t = .next t ∧ ∀ q : Request, step (t.present q) = step (s.present q)

/-! ### The width mask unit and the negator -/

/-- 41_width_mask_unit.md R100: `value & mask`, at every width 0 to 255; nothing else changes. -/
def Obligations.ToWidthAndsTheMask : Prop :=
  ∀ (value : U64) (width : U8) (s : State),
    exec (.toWidth value width) s = .next { s with
      ret := .masked (value &&&
        (if 64 ≤ width.toNat then 0xFFFFFFFFFFFFFFFF#64 else BitVec.ofNat 64 (2 ^ width.toNat - 1))) }

/-- 41_width_mask_unit.md, the postcondition `r ≤ 2^width − 1`, and that its check cannot fail (which the spec derives
from R100). That the check is kept is the model's choice (log 8). -/
def Obligations.MaskCheckCannotFail : Prop :=
  ∀ (value : U64) (width : U8) (s : State),
    ∃ r : U64, exec (.toWidth value width) s = .next { s with ret := .masked r } ∧ r.toNat ≤ 2 ^ width.toNat - 1

/-- 41_width_mask_unit.md, the table of corner cases of `to_width` (which the spec derives). -/
def Obligations.ToWidthReducesModuloTwoToTheWidth : Prop :=
  ∀ (value : U64) (width : U8) (s : State),
    ∃ r : U64, exec (.toWidth value width) s = .next { s with ret := .masked r } ∧
      r.toNat = value.toNat % 2 ^ width.toNat ∧ (64 ≤ width.toNat → r = value) ∧ (width.toNat = 0 → r = 0#64)

/-- 41_width_mask_unit.md section on the role in the data flow: a valid request's operands need no mask. -/
def Obligations.ValidOperandsAreAlreadyMasked : Prop :=
  ∀ (left right : U64) (width : U8) (s : State), requestValid left right width = true →
    exec (.toWidth left width) s = .next { s with ret := .masked left } ∧
      exec (.toWidth right width) s = .next { s with ret := .masked right }

/-- 46_negator_and_calc.md R200 and R201: the 64-bit complement plus one, wrapping, masked to the width; the negation
of 0 is 0 at every width; nothing else changes. -/
def Obligations.NegateMasksTheWrappingComplement : Prop :=
  (∀ (right : U64) (width : U8) (s : State), ∃ r : U64,
    exec (.negate right width) s = .next { s with ret := .negated r } ∧
      exec (.toWidth (BitVec.ofNat 64 ((~~~right).toNat + 1)) width) s = .next { s with ret := .masked r }) ∧
    ∀ (width : U8) (s : State), exec (.negate 0#64 width) s = .next { s with ret := .negated 0#64 }

/-- 46_negator_and_calc.md, closed form and corner cases of `negate` (which the spec derives). -/
def Obligations.NegateIsModularNegation : Prop :=
  ∀ (right : U64) (width : U8) (s : State), ∃ r : U64,
    exec (.negate right width) s = .next { s with ret := .negated r } ∧
      (width.toNat ≤ 64 → r.toNat = (2 ^ width.toNat - right.toNat % 2 ^ width.toNat) % 2 ^ width.toNat) ∧
      (64 ≤ width.toNat → r.toNat = (2 ^ 64 - right.toNat) % 2 ^ 64) ∧
      (1 ≤ width.toNat → width.toNat ≤ 64 → right.toNat = 2 ^ (width.toNat - 1) → r = right)

/-! ### The adder and the flags -/

/-- 42_ripple_carry_adder.md R120 with 43_flag_derivation_unit.md R141 to R144: for the carries the bit-serial
algorithm computes, the result bits, the four flags and the signed reading are as the rules say; nothing else
changes. -/
def Obligations.AluAddFollowsTheBitSerialAlgorithm : Prop :=
  ∀ (left right : U64) (width : U8) (s : State) (c : Nat → Bool), 1 ≤ width.toNat → width.toNat ≤ 64 →
    c 0 = false →
    (∀ i, i < width.toNat →
      c (i + 1) = decide (2 ≤ (c i).toNat + (left.getLsbD i).toNat + (right.getLsbD i).toNat)) →
    ∃ unsigned signed : U64,
      exec (.aluAdd left right width) s = .next { s with
        ret := .sum
          { result := { unsigned := unsigned, signed := signed }
            flags :=
              { negative := unsigned.getLsbD (width.toNat - 1)
                zero := decide (unsigned = 0#64)
                overflow := c width.toNat ^^ c (width.toNat - 1)
                carry := c width.toNat } } } ∧
      (∀ i, i < width.toNat → unsigned.getLsbD i =
        decide (((c i).toNat + (left.getLsbD i).toNat + (right.getLsbD i).toNat) % 2 = 1)) ∧
      (∀ i, width.toNat ≤ i → unsigned.getLsbD i = false) ∧
      exec (.asSigned unsigned width) s = .next { s with ret := .signed signed }

/-- 42_ripple_carry_adder.md R125, as an equivalence: the bit-serial adder gives exactly what native binary addition at
the width gives: sum, sign extension, carry out, and signed overflow. -/
def Obligations.BitSerialAdderEqualsNativeAddition : Prop :=
  ∀ (left right : U64) (width : U8) (s : State), 1 ≤ width.toNat → width.toNat ≤ 64 →
    exec (.aluAdd left right width) s = .next { s with
      ret := .sum
        { result :=
            { unsigned := (left.setWidth width.toNat + right.setWidth width.toNat).setWidth 64
              signed := (left.setWidth width.toNat + right.setWidth width.toNat).signExtend 64 }
          flags :=
            { negative := (left.setWidth width.toNat + right.setWidth width.toNat).msb
              zero := decide (left.setWidth width.toNat + right.setWidth width.toNat = 0#width.toNat)
              overflow := BitVec.saddOverflow (left.setWidth width.toNat) (right.setWidth width.toNat)
              carry := BitVec.uaddOverflow (left.setWidth width.toNat) (right.setWidth width.toNat) } } }

/-- 42_ripple_carry_adder.md and 43_flag_derivation_unit.md, the arithmetic laws of the sum, the carry and the signed
overflow (which the spec derives). -/
def Obligations.AluAddArithmeticLaws : Prop :=
  ∀ (left right : U64) (width : U8) (s : State), 1 ≤ width.toNat → width.toNat ≤ 64 →
    ∃ o : SumOutput, exec (.aluAdd left right width) s = .next { s with ret := .sum o } ∧
      o.result.unsigned.toNat =
        (left.toNat % 2 ^ width.toNat + right.toNat % 2 ^ width.toNat) % 2 ^ width.toNat ∧
      (o.flags.carry = true ↔
        2 ^ width.toNat ≤ left.toNat % 2 ^ width.toNat + right.toNat % 2 ^ width.toNat) ∧
      (o.flags.overflow = true ↔
        (left.setWidth width.toNat).toInt + (right.setWidth width.toNat).toInt < -2 ^ (width.toNat - 1) ∨
          2 ^ (width.toNat - 1) - 1 <
            (left.setWidth width.toNat).toInt + (right.setWidth width.toNat).toInt)

/-- 42_ripple_carry_adder.md, width of inputs and outputs (which the spec derives): the adder reads only bits
`0 .. w−1`. -/
def Obligations.AluAddIgnoresBitsAboveTheWidth : Prop :=
  ∀ (left right left' right' : U64) (width : U8) (s : State),
    (∀ i, i < width.toNat → left.getLsbD i = left'.getLsbD i) →
    (∀ i, i < width.toNat → right.getLsbD i = right'.getLsbD i) →
    exec (.aluAdd left right width) s = exec (.aluAdd left' right' width) s

/-- 43_flag_derivation_unit.md, corner cases of the flags (which the spec derives). -/
def Obligations.FlagCornerCases : Prop :=
  ∀ (left right : U64) (width : U8) (s : State), 1 ≤ width.toNat → width.toNat ≤ 64 →
    ∃ o : SumOutput, exec (.aluAdd left right width) s = .next { s with ret := .sum o } ∧
      (o.flags.zero = true → o.flags.negative = false) ∧
      (o.flags.zero = true ∧ o.flags.carry = true ↔
        left.toNat % 2 ^ width.toNat + right.toNat % 2 ^ width.toNat = 2 ^ width.toNat) ∧
      (o.flags.zero = true ∧ o.flags.overflow = true ↔
        left.toNat % 2 ^ width.toNat = 2 ^ (width.toNat - 1) ∧
          right.toNat % 2 ^ width.toNat = 2 ^ (width.toNat - 1)) ∧
      (width.toNat = 1 → o.flags.overflow = o.flags.carry)

/-- 43_flag_derivation_unit.md, corner cases, and C8 of 90_conflicts.md: at every width of 2 or more all four
combinations of carry and overflow occur. -/
def Obligations.CarryAndOverflowAreIndependent : Prop :=
  ∀ (width : U8) (carry overflow : Bool) (s : State), 2 ≤ width.toNat → width.toNat ≤ 64 →
    ∃ (left right : U64) (o : SumOutput),
      exec (.aluAdd left right width) s = .next { s with ret := .sum o } ∧
        o.flags.carry = carry ∧ o.flags.overflow = overflow

/-- 43_flag_derivation_unit.md R140: the four flags of one adder evaluation, and no other change; at other widths the
evaluation is the fault UnitWidthOutOfDomain. -/
def Obligations.DeriveFlagsGivesAllFourFlags : Prop :=
  ∀ (result : U64) (carry previousCarry : Bool) (width : U8) (s : State),
    (1 ≤ width.toNat → width.toNat ≤ 64 → result.toNat < 2 ^ width.toNat →
      exec (.deriveFlags result carry previousCarry width) s = .next { s with
        ret := .flags
          { negative := result.getLsbD (width.toNat - 1)
            zero := decide (result = 0#64)
            overflow := carry ^^ previousCarry
            carry := carry } }) ∧
      (width.toNat = 0 ∨ 64 < width.toNat →
        exec (.deriveFlags result carry previousCarry width) s = .fault .unitWidthOutOfDomain)

/-- The model's literal reading of a result with bits at or above the width (log 9, which is the model's choice):
bit `w − 1` is the negative flag, and such a result is not zero. -/
def Obligations.DeriveFlagsReadsAWideResultLiterally : Prop :=
  ∀ (result : U64) (carry previousCarry : Bool) (width : U8) (s : State),
    1 ≤ width.toNat → width.toNat ≤ 64 → 2 ^ width.toNat ≤ result.toNat →
      exec (.deriveFlags result carry previousCarry width) s = .next { s with
        ret := .flags
          { negative := decide (result.toNat / 2 ^ (width.toNat - 1) % 2 = 1)
            zero := false
            overflow := decide (carry ≠ previousCarry)
            carry := carry } }

/-- 42_ripple_carry_adder.md R126: `alu_add` at width 0 or above 64 is the fault UnitWidthOutOfDomain; CALC never does
this; width 4 is inside the domain. -/
def Obligations.AluAddFaultsOutsideItsWidths : Prop :=
  (∀ (left right : U64) (width : U8) (s : State), width.toNat = 0 ∨ 64 < width.toNat →
    exec (.aluAdd left right width) s = .fault .unitWidthOutOfDomain) ∧
    (∀ (left right : U64) (width : U8) (s : State),
      exec (.calcOp left right width) s ≠ .fault .unitWidthOutOfDomain) ∧
    ∀ (left right : U64) (s : State), ∃ o, exec (.aluAdd left right 4#8) s = .next { s with ret := .sum o }

/-! ### The sign interpreter -/

/-- 44_sign_interpreter.md R160: a clear top bit returns the value; a set one fills every position at or above the
bits the value occupies; nothing else changes. -/
def Obligations.AsSignedFillsAboveTheOccupiedBits : Prop :=
  ∀ (value : U64) (width : U8) (s : State), 1 ≤ width.toNat → width.toNat ≤ 64 →
    ∃ pattern : U64, exec (.asSigned value width) s = .next { s with ret := .signed pattern } ∧
      (value.getLsbD (width.toNat - 1) = false → pattern = value) ∧
      (value.getLsbD (width.toNat - 1) = true → ∀ i, i < 64 →
        pattern.getLsbD i = (value.getLsbD i || decide (Nat.log2 value.toNat + 1 ≤ i)))

/-- 44_sign_interpreter.md, sign extension and round trip on a value below `2^w` (which the spec derives). -/
def Obligations.AsSignedIsSignExtensionOnBoundedValues : Prop :=
  ∀ (value : U64) (width : U8) (s : State), 1 ≤ width.toNat → width.toNat ≤ 64 →
    value.toNat < 2 ^ width.toNat →
    ∃ pattern : U64, exec (.asSigned value width) s = .next { s with ret := .signed pattern } ∧
      pattern.toInt =
        (value.toNat : Int) - (if value.getLsbD (width.toNat - 1) then 2 ^ width.toNat else 0) ∧
      pattern.toNat % 2 ^ width.toNat = value.toNat

/-- 44_sign_interpreter.md R162: at width 64 the mask is a no-op, and `as_signed` is the identity on the pattern. -/
def Obligations.AsSignedAtFullWidthIsTheIdentity : Prop :=
  ∀ (value : U64) (s : State), exec (.asSigned value 64#8) s = .next { s with ret := .signed value }

/-- 44_sign_interpreter.md, width domain: `as_signed` at width 0 or above 64 is the fault UnitWidthOutOfDomain. -/
def Obligations.AsSignedFaultsOutsideItsWidths : Prop :=
  ∀ (value : U64) (width : U8) (s : State), width.toNat = 0 ∨ 64 < width.toNat →
    exec (.asSigned value width) s = .fault .unitWidthOutOfDomain

/-! ### Validation and the error report -/

/-- 45_request_validation.md R180 and R184: left operand, right operand, width, and the first failure alone decides;
nothing else changes. -/
def Obligations.TryNewReportsTheFirstFailure : Prop :=
  ∀ (left right : U64) (width : U8) (s : State),
    exec (.tryNew left right width) s = .next { s with
      ret :=
        if 2 ^ width.toNat - 1 < left.toNat then .rejected (.operandTooLarge .left left width)
        else if 2 ^ width.toNat - 1 < right.toNat then .rejected (.operandTooLarge .right right width)
        else if 64 < width.toNat ∨ width.toNat < 8 then .rejected (.unsupportedWidth width)
        else .accepted { left := left, right := right, width := width } }

/-- 45_request_validation.md R185: the bound is the mathematical integer, so at width 64 and above no operand check
fails: a request of width 64 is accepted, one of a greater width is rejected for its width. -/
def Obligations.NoOperandIsTooLargeAtFullWidth : Prop :=
  ∀ (left right : U64) (width : U8) (s : State), 64 ≤ width.toNat →
    exec (.tryNew left right width) s = .next { s with
      ret :=
        if width.toNat = 64 then .accepted { left := left, right := right, width := width }
        else .rejected (.unsupportedWidth width) }

/-- 45_request_validation.md R181 and R182, 60_exceptions.md R231: an operand that is too large is reported, the left
one first, on the status and error ports, and no other port is driven; below width 64 an operand is too large exactly
when it has a bit at or above the width. -/
def Obligations.CalcReportsOperandTooLarge : Prop :=
  ∀ (left right : U64) (width : U8) (s : State),
    (2 ^ width.toNat - 1 < left.toNat →
      ∃ t, exec (.calcOp left right width) s = .next t ∧
        t.inp = { left := left, right := right, width := width } ∧
        t.out = { Ports.undriven with
          status := some 0b01#2, errOperand := some 0#1, errValue := some left, errWidth := some width }) ∧
      (left.toNat ≤ 2 ^ width.toNat - 1 → 2 ^ width.toNat - 1 < right.toNat →
        ∃ t, exec (.calcOp left right width) s = .next t ∧
          t.inp = { left := left, right := right, width := width } ∧
          t.out = { Ports.undriven with
            status := some 0b01#2, errOperand := some 1#1, errValue := some right, errWidth := some width }) ∧
      (width.toNat < 64 → (2 ^ width.toNat - 1 < left.toNat ↔
        ∃ i, width.toNat ≤ i ∧ i < 64 ∧ left.getLsbD i = true))

/-- 45_request_validation.md R183, 60_exceptions.md R232: with both operands in range, a width outside 8 to 64 is
reported on the status and `err_width`, and no other port is driven; a request that passes is one with
`8 ≤ width ≤ 64` and both operands at most `2^width − 1`. -/
def Obligations.CalcReportsUnsupportedWidth : Prop :=
  ∀ (left right : U64) (width : U8) (s : State),
    (left.toNat ≤ 2 ^ width.toNat - 1 → right.toNat ≤ 2 ^ width.toNat - 1 →
      width.toNat < 8 ∨ 64 < width.toNat →
      ∃ t, exec (.calcOp left right width) s = .next t ∧
        t.inp = { left := left, right := right, width := width } ∧
        t.out = { Ports.undriven with status := some 0b10#2, errWidth := some width }) ∧
      (exec (.tryNew left right width) s =
          .next { s with ret := .accepted { left := left, right := right, width := width } } ↔
        left.toNat ≤ 2 ^ width.toNat - 1 ∧ right.toNat ≤ 2 ^ width.toNat - 1 ∧
          8 ≤ width.toNat ∧ width.toNat ≤ 64)

/-- 30_encoding.md R76, 45_request_validation.md R184 and 60_exceptions.md R234: which requests are invalid, in the
order of the checks, exactly one error being reported and no result with it; no operand check fails at width 64 and
above. The status and `err_operand` of CALC say so. -/
def Obligations.StatusSaysWhyARequestIsInvalid : Prop :=
  ∀ (left right : U64) (width : U8) (s : State), ∃ t, exec (.calcOp left right width) s = .next t ∧
    (t.out.status = some 0b01#2 ↔ 2 ^ width.toNat ≤ left.toNat ∨ 2 ^ width.toNat ≤ right.toNat) ∧
    (t.out.errOperand = some 0#1 ↔ 2 ^ width.toNat ≤ left.toNat) ∧
    (t.out.errOperand = some 1#1 ↔ ¬ 2 ^ width.toNat ≤ left.toNat ∧ 2 ^ width.toNat ≤ right.toNat) ∧
    (t.out.status = some 0b10#2 ↔ ¬ 2 ^ width.toNat ≤ left.toNat ∧ ¬ 2 ^ width.toNat ≤ right.toNat ∧
      (width.toNat < 8 ∨ 64 < width.toNat)) ∧
    (t.out.status = some 0b00#2 ↔ ¬ 2 ^ width.toNat ≤ left.toNat ∧ ¬ 2 ^ width.toNat ≤ right.toNat ∧
      8 ≤ width.toNat ∧ width.toNat ≤ 64) ∧
    (t.out.status ≠ some 0b00#2 → t.out.add = ChannelPorts.undriven ∧ t.out.sub = ChannelPorts.undriven) ∧
    (64 ≤ width.toNat → t.out.status ≠ some 0b01#2)

/-! ### The two channels -/

/-- 46_negator_and_calc.md R203: the ADD channel of a valid request is `alu_add(left, right, width)`; CALC drives it,
and ADD is that CALC and a read of the channel (30_encoding.md R79). -/
def Obligations.AddChannelIsTheAdderOnTheOperands : Prop :=
  ∀ (left right : U64) (width : U8) (s : State), requestValid left right width = true →
    ∃ (o : SumOutput) (t : State),
      exec (.aluAdd left right width) s = .next { s with ret := .sum o } ∧
        exec (.calcOp left right width) s = .next t ∧
        t.out.add =
          { unsigned := some o.result.unsigned, signed := some o.result.signed, n := some o.flags.negative,
            z := some o.flags.zero, c := some o.flags.carry, v := some o.flags.overflow } ∧
        exec (.add left right width) s = .next { t with ret := .channel o }

/-- 46_negator_and_calc.md R204: the SUB channel of a valid request is `alu_add(left, negate(right, width), width)`,
through the same adder; CALC drives it, and SUB is that CALC and a read of the channel (30_encoding.md R79). -/
def Obligations.SubChannelIsTheAdderOnTheNegatedOperand : Prop :=
  ∀ (left right : U64) (width : U8) (s : State), requestValid left right width = true →
    ∃ (nr : U64) (o : SumOutput) (t : State),
      exec (.negate right width) s = .next { s with ret := .negated nr } ∧
        exec (.aluAdd left nr width) s = .next { s with ret := .sum o } ∧
        exec (.calcOp left right width) s = .next t ∧
        t.out.sub =
          { unsigned := some o.result.unsigned, signed := some o.result.signed, n := some o.flags.negative,
            z := some o.flags.zero, c := some o.flags.carry, v := some o.flags.overflow } ∧
        exec (.sub left right width) s = .next { t with ret := .channel o }

/-- The model's reading of ADD and SUB on an invalid request (log 5): the request's error is raised before the channel,
so the state is that of the CALC and no channel is read. -/
def Obligations.ChannelFormsOfAnInvalidRequestReportItsError : Prop :=
  ∀ (left right : U64) (width : U8) (s : State), requestValid left right width = false →
    ∃ t, exec (.calcOp left right width) s = .next t ∧ t.out.status ≠ some 0b00#2 ∧
      exec (.add left right width) s = .next t ∧ exec (.sub left right width) s = .next t

/-- 46_negator_and_calc.md R206 with its channels as a whole, on every valid request: CALC is native addition and
native subtraction at the width, with the flags of `left + right` and of `left + (−right)`, and no error port. -/
def Obligations.CalcIsNativeAddAndSubtract : Prop :=
  ∀ (left right : U64) (width : U8) (s : State) (x y : BitVec width.toNat), requestValid left right width = true →
    x = left.setWidth width.toNat → y = right.setWidth width.toNat →
    exec (.calcOp left right width) s = .next
      { inp := { left := left, right := right, width := width }
        out :=
          { status := some 0b00#2
            errOperand := none
            errValue := none
            errWidth := none
            add :=
              { unsigned := some ((x + y).setWidth 64)
                signed := some ((x + y).signExtend 64)
                n := some (x + y).msb
                z := some (decide (x + y = 0#width.toNat))
                c := some (BitVec.uaddOverflow x y)
                v := some (BitVec.saddOverflow x y) }
            sub :=
              { unsigned := some ((x - y).setWidth 64)
                signed := some ((x - y).signExtend 64)
                n := some (x - y).msb
                z := some (decide (x = y))
                c := some (BitVec.uaddOverflow x (-y))
                v := some (BitVec.saddOverflow x (-y)) } }
        ret := .idle }

/-- 46_negator_and_calc.md section 3, the ADD laws (which the spec derives). -/
def Obligations.AddChannelLaws : Prop :=
  ∀ (left right : U64) (width : U8) (s : State), requestValid left right width = true →
    ∃ (t : State) (u sg : U64), exec (.calcOp left right width) s = .next t ∧
      t.out.add.unsigned = some u ∧ u.toNat = (left.toNat + right.toNat) % 2 ^ width.toNat ∧
      t.out.add.signed = some sg ∧
      sg.toInt = (u.toNat : Int) - (if 2 ^ (width.toNat - 1) ≤ u.toNat then 2 ^ width.toNat else 0) ∧
      t.out.add.n = some (u.getLsbD (width.toNat - 1)) ∧
      t.out.add.z = some (decide (u = 0#64)) ∧
      t.out.add.c = some (decide (2 ^ width.toNat ≤ left.toNat + right.toNat)) ∧
      t.out.add.v = some (decide (
        (left.setWidth width.toNat).toInt + (right.setWidth width.toNat).toInt < -2 ^ (width.toNat - 1) ∨
          2 ^ (width.toNat - 1) - 1 <
            (left.setWidth width.toNat).toInt + (right.setWidth width.toNat).toInt))

/-- 46_negator_and_calc.md section 3, the SUB result laws (which the spec derives). -/
def Obligations.SubChannelResultLaws : Prop :=
  ∀ (left right : U64) (width : U8) (s : State), requestValid left right width = true →
    ∃ (t : State) (u sg : U64), exec (.calcOp left right width) s = .next t ∧
      t.out.sub.unsigned = some u ∧
      (u.toNat : Int) = ((left.toNat : Int) - right.toNat) % 2 ^ width.toNat ∧
      t.out.sub.signed = some sg ∧
      sg.toInt = (u.toNat : Int) - (if 2 ^ (width.toNat - 1) ≤ u.toNat then 2 ^ width.toNat else 0) ∧
      t.out.sub.n = some (u.getLsbD (width.toNat - 1)) ∧
      t.out.sub.z = some (decide (left = right))

/-- 46_negator_and_calc.md section 3, the SUB carry law (which the spec derives), and C3 of 90_conflicts.md: carry means
no borrow except at `right = 0`, where it is 0. -/
def Obligations.SubCarryLaw : Prop :=
  ∀ (left right : U64) (width : U8) (s : State), requestValid left right width = true →
    ∃ t, exec (.calcOp left right width) s = .next t ∧
      t.out.sub.c = some (decide (right ≠ 0#64 ∧ right.toNat ≤ left.toNat))

/-- 46_negator_and_calc.md section 3, the SUB overflow law (which the spec derives), and C5 of 90_conflicts.md: the true
signed-subtraction overflow, except at `right = 2^(w−1)`, where it is the opposite. -/
def Obligations.SubOverflowLaw : Prop :=
  ∀ (left right : U64) (width : U8) (s : State) (difference : Int), requestValid left right width = true →
    difference = (left.setWidth width.toNat).toInt - (right.setWidth width.toNat).toInt →
    ∃ t, exec (.calcOp left right width) s = .next t ∧
      (right = 0#64 → t.out.sub.v = some false) ∧
      (right.toNat = 2 ^ (width.toNat - 1) →
        t.out.sub.v = some (left.getLsbD (width.toNat - 1)) ∧
          t.out.sub.v = some (!decide (difference < -2 ^ (width.toNat - 1) ∨
            2 ^ (width.toNat - 1) - 1 < difference))) ∧
      (right.toNat ≠ 2 ^ (width.toNat - 1) →
        t.out.sub.v = some (decide (difference < -2 ^ (width.toNat - 1) ∨
          2 ^ (width.toNat - 1) - 1 < difference)))

/-- 46_negator_and_calc.md section 3, the same value on both operands (which the spec derives). -/
def Obligations.SameValueOnBothOperands : Prop :=
  ∀ (x : U64) (width : U8) (s : State), requestValid x x width = true →
    ∃ (t : State) (u : U64), exec (.calcOp x x width) s = .next t ∧
      t.out.sub.unsigned = some 0#64 ∧ t.out.sub.z = some true ∧ t.out.sub.n = some false ∧
      t.out.sub.c = some (decide (x ≠ 0#64)) ∧
      t.out.sub.v = some (decide (x.toNat = 2 ^ (width.toNat - 1))) ∧
      t.out.add.unsigned = some u ∧ u.toNat = 2 * x.toNat % 2 ^ width.toNat ∧
      t.out.add.c = some (x.getLsbD (width.toNat - 1))

/-! ### Ports, frames and invariants -/

/-- 10_state.md R34: after CALC, ADD or SUB the status is driven, and a port has a value exactly when the table drives
it for that status; reading any other port is the fault UndrivenPortRead. That ADD and SUB answer a next state on an
invalid request is the model's reading (log 5). -/
def Obligations.PortsAreDrivenAsTheStatusSays : Prop :=
  ∀ (i : Instr) (left right : U64) (width : U8) (s : State),
    (i = .calcOp left right width ∨ i = .add left right width ∨ i = .sub left right width) →
    ∃ (t : State) (status : BitVec 2), exec i s = .next t ∧ t.out.status = some status ∧ status ≠ 0b11#2 ∧
      ∀ p : Port,
        (p.drivenUnder status = true → ∃ v, t.out.read p = .ok v) ∧
          (p.drivenUnder status = false → t.out.read p = .error .undrivenPortRead)

/-- 70_reset_and_hazards.md section 1 and the model's log 3: at reset, and after a request is presented and before it
has settled, no output port has a value. -/
def Obligations.NoOutputHasAValueBeforeItSettles : Prop :=
  ∀ p : Port,
    State.reset.out.read p = .error .undrivenPortRead ∧
      ∀ (s : State) (q : Request), (s.present q).out.read p = .error .undrivenPortRead ∧ (s.present q).inp = q

/-- 30_encoding.md section on unit-level interfaces, and log 4: a unit call changes no port; what it changes is the
record of what it returned. -/
def Obligations.UnitCallsChangeNoPort : Prop :=
  ∀ (s t : State) (i : Instr), i.hasEncoding = false → exec i s = .next t →
    t.inp = s.inp ∧ t.out = s.out ∧ t.ret ≠ .idle

/-- 30_encoding.md R75 and R79: CALC, ADD and SUB put their request on the input ports and drive the same outputs,
whatever the state before; they differ only in what their consumer then reads. That ADD and SUB answer a next state on an
invalid request is the model's reading (log 5); that the request is presented and `ret` cleared is its choice (logs 13
and 12). -/
def Obligations.ChannelFormsDriveThePortsOfTheirCalc : Prop :=
  ∀ (left right : U64) (width : U8) (s s' : State), ∃ (o : Ports) (a b : UnitReturn),
    exec (.calcOp left right width) s =
        .next { inp := { left := left, right := right, width := width }, out := o, ret := .idle } ∧
      exec (.add left right width) s' =
        .next { inp := { left := left, right := right, width := width }, out := o, ret := a } ∧
      exec (.sub left right width) s' =
        .next { inp := { left := left, right := right, width := width }, out := o, ret := b }

/-- 30_encoding.md R74: the reserved status is never driven, by any operation. -/
def Obligations.ReservedStatusIsNeverDriven : Prop :=
  ∀ (i : Instr) (s t : State), exec i s = .next t → s.out.status ≠ some 0b11#2 → t.out.status ≠ some 0b11#2

/-- The invariant `State.Inv` holds at reset. -/
def Obligations.ResetMeetsThePortInvariant : Prop :=
  State.reset.Inv

/-- Every operation keeps `State.Inv`: the port table of R34, outputs that belong to the request on the input ports
(R260), and the validity of an accepted request (R183). Presenting a request keeps it too. -/
def Obligations.EveryOperationKeepsThePortInvariant : Prop :=
  (∀ (i : Instr) (s t : State), s.Inv → exec i s = .next t → t.Inv) ∧
    ∀ (s : State) (q : Request), s.Inv → (s.present q).Inv

/-- A step keeps `State.Inv`, and after it the outputs are driven: they keep the port table and are what one evaluation
of the request gives, in every state before it. -/
def Obligations.EveryStepKeepsThePortInvariant : Prop :=
  ∀ s t : State, step s = .next t →
    t.inp = s.inp ∧ t.out.KeepsTable ∧ calcPorts s.inp = .ok t.out ∧ (s.Inv → t.Inv)
end

