-- ==== Sys2Proof/Laws/Adder.lean ====
section
/-!
SUPPORT. The ripple-carry adder: the loop's carries are the carries of a binary addition and its result the low bits of
the sum. Flags and sign extension of a value that fits its width.
-/

namespace Sys2Proof.Machine

/-- A width outside the units' domain is 0 or above 64. -/
theorem outsideUnitDomain_iff (width : U8) :
    outsideUnitDomain width = true ↔ width.toNat = 0 ∨ 64 < width.toNat := by
  simp [outsideUnitDomain, Config.unitWmin, Config.unitWmax]

/-- A width of 1 to 64 lies in the units' domain. -/
theorem outsideUnitDomain_eq_false {width : U8} (h1 : 1 ≤ width.toNat) (h2 : width.toNat ≤ 64) :
    outsideUnitDomain width = false := by
  simp only [outsideUnitDomain, Config.unitWmin, Config.unitWmax, Bool.or_eq_false_iff, decide_eq_false_iff_not]
  omega

/-- A bit sum of 2 or more is a majority of ones. -/
theorem two_le_bitSum (c a b : Bool) : decide (2 ≤ bitSum c a b) = a.atLeastTwo b c := by
  cases c <;> cases a <;> cases b <;> rfl

/-- A bit sum is odd exactly when the exclusive or is 1. -/
theorem bitSum_odd (c a b : Bool) : decide (bitSum c a b % 2 = 1) = (a ^^ (b ^^ c)) := by
  cases c <;> cases a <;> cases b <;> rfl

/-- After `n` positions the loop's carry is the carry into bit `n` of the sum. -/
theorem adderLoop_carry (left right : U64) (n : Nat) :
    (adderLoop left right n).carry = BitVec.carry n left right false := by
  induction n with
  | zero => simp [adderLoop, AdderLoop.start]
  | succ n ih => rw [adderLoop, AdderLoop.visit, BitVec.carry_succ, ih]; exact two_le_bitSum _ _ _

/-- After position `n` the previous carry is the carry into it. -/
theorem adderLoop_previousCarry (left right : U64) (n : Nat) :
    (adderLoop left right (n + 1)).previousCarry = some (BitVec.carry n left right false) := by
  rw [adderLoop, AdderLoop.visit, adderLoop_carry]

/-- After `n` positions the result holds the low `n` bits of the sum and nothing above them. -/
theorem adderLoop_getLsbD (left right : U64) (n : Nat) (hn : n ≤ 64) (j : Nat) :
    (adderLoop left right n).result.getLsbD j = (decide (j < n) && (left + right).getLsbD j) := by
  induction n with
  | zero => simp [adderLoop, AdderLoop.start]
  | succ n ih =>
    have ih := ih (by omega)
    have hx : (left + right).getLsbD n = decide (bitSum (adderLoop left right n).carry (bitAt left n)
        (bitAt right n) % 2 = 1) := by
      rw [BitVec.getLsbD_add (by omega), bitSum_odd, adderLoop_carry]
    have hbit : (extractor n).getLsbD j = decide (j = n) := by
      rw [extractor, BitVec.getLsbD_shiftLeft, BitVec.getLsbD_one, Bool.eq_iff_iff]
      simp only [Bool.and_eq_true, Bool.not_eq_true', decide_eq_true_eq, decide_eq_false_iff_not]
      omega
    rw [adderLoop, AdderLoop.visit]
    rcases Nat.lt_trichotomy j n with h | h | h
    · split <;> simp [ih, hbit, h, show j ≠ n by omega, show j < n + 1 by omega]
    · subst h
      split <;> rename_i hs <;> simp [ih, hbit, hx, hs]
    · split <;> simp [ih, hbit, show ¬ j < n by omega, show j ≠ n by omega, show ¬ j < n + 1 by omega]

/-- The loop's result is the sum of the operands at width `n`, zero-extended. -/
theorem adderLoop_result (left right : U64) (n : Nat) (hn : n ≤ 64) :
    (adderLoop left right n).result = (left.setWidth n + right.setWidth n).setWidth 64 := by
  rw [← BitVec.setWidth_add _ _ hn]
  apply BitVec.eq_of_getLsbD_eq
  intro j hj
  rw [adderLoop_getLsbD _ _ _ hn]
  simp [hj]

/-- The bits below the leading zeros: the highest set bit of a value that occupies `k + 1` bits is bit `k`. -/
theorem leadingZerosBelow_eq (v : U64) (k : Nat) (hk : bitAt v k = true) (n : Nat) (hn : k < n)
    (hz : ∀ j, k < j → j < n → bitAt v j = false) : leadingZerosBelow v n = n - (k + 1) := by
  induction n with
  | zero => omega
  | succ n ih =>
    rw [leadingZerosBelow]
    by_cases h : n = k
    · subst h; simp [hk]
    · rw [hz n (by omega) (by omega), ih (by omega) (fun j h1 h2 => hz j h1 (by omega))]
      simp; omega

/-- The value occupies `k + 1` bits when bit `k` is its highest set bit. -/
theorem significantBits_eq (v : U64) (k : Nat) (hk : bitAt v k = true) (hn : k < 64)
    (hz : ∀ j, k < j → j < 64 → bitAt v j = false) : significantBits v = k + 1 := by
  rw [significantBits, lzc, leadingZerosBelow_eq v k hk 64 hn hz]
  omega

/-- The mask from `sig` sets exactly the bits at or above position `sig`. -/
theorem maskFrom_getLsbD (sig j : Nat) (hs : sig ≤ 64) (hj : j < 64) :
    (maskFrom sig).getLsbD j = decide (sig ≤ j) := by
  unfold maskFrom
  split
  · simp; omega
  · have hlt : 2 ^ sig - 1 < 2 ^ 64 := by
      have := Nat.pow_lt_pow_right (a := 2) (by decide) (show sig < 64 by omega)
      omega
    simp only [BitVec.getLsbD_not, hj, decide_true, Bool.true_and, BitVec.getLsbD_ofNat, Nat.testBit_two_pow_sub_one]
    by_cases h : sig ≤ j
    · simp [h]
    · simp [h]; omega

/-- On a value that fits its width, `as_signed` is sign extension from its top bit. -/
theorem asSigned_of_fits (v : U64) (width : U8) (h1 : 1 ≤ width.toNat) (h2 : width.toNat ≤ 64)
    (hv : ∀ j, width.toNat ≤ j → v.getLsbD j = false) :
    asSigned v width = .ok ((v.setWidth width.toNat).signExtend 64) := by
  rw [asSigned, outsideUnitDomain_eq_false h1 h2]
  simp only [Bool.false_eq_true, if_false]
  have hmsb : (v.setWidth width.toNat).msb = v.getLsbD (width.toNat - 1) := by
    rw [BitVec.msb_eq_getLsbD_last, BitVec.getLsbD_setWidth]
    simp; omega
  by_cases hb : v.getLsbD (width.toNat - 1) = true
  · rw [if_pos hb]
    congr 1
    have hsig : significantBits v = width.toNat := by
      rw [significantBits_eq v (width.toNat - 1) hb (by omega) (fun j h _ => hv j (by omega))]
      omega
    apply BitVec.eq_of_getLsbD_eq
    intro j hj
    rw [BitVec.getLsbD_or, hsig, maskFrom_getLsbD _ _ h2 hj, BitVec.getLsbD_signExtend, hmsb, hb]
    by_cases h : j < width.toNat
    · simp [h, hj]
    · simp [h, hj]; omega
  · rw [if_neg hb]
    congr 1
    apply BitVec.eq_of_getLsbD_eq
    intro j hj
    rw [BitVec.getLsbD_signExtend, hmsb]
    by_cases h : j < width.toNat
    · simp [h, hj]
    · rw [hv j (by omega)]; simp [h, hb]

/-- The four flags at a width in the units' domain. -/
theorem deriveFlags_eq_ok (result : U64) (carry previousCarry : Bool) (width : U8)
    (h1 : 1 ≤ width.toNat) (h2 : width.toNat ≤ 64) :
    deriveFlags result carry previousCarry width =
      .ok { negative := negativeFlag result width, zero := zeroFlag result,
            overflow := overflowFlag carry previousCarry, carry := carry } := by
  rw [deriveFlags, outsideUnitDomain_eq_false h1 h2]; rfl

/-- `alu_add` has a value at every width in the units' domain: the sum of the low bits, its sign extension, and the
flags of the carries into and out of the top bit. -/
theorem aluAdd_eq_ok (left right : U64) (width : U8) (h1 : 1 ≤ width.toNat) (h2 : width.toNat ≤ 64) :
    aluAdd left right width =
      .ok { result :=
              { unsigned := (adderLoop left right width.toNat).result
                signed := ((adderLoop left right width.toNat).result.setWidth width.toNat).signExtend 64 }
            flags :=
              { negative := negativeFlag (adderLoop left right width.toNat).result width
                zero := zeroFlag (adderLoop left right width.toNat).result
                overflow := overflowFlag (BitVec.carry width.toNat left right false)
                  (BitVec.carry (width.toNat - 1) left right false)
                carry := BitVec.carry width.toNat left right false } } := by
  obtain ⟨n, hn⟩ : ∃ n, width.toNat = n + 1 := ⟨width.toNat - 1, by omega⟩
  have hp : (adderLoop left right width.toNat).previousCarry =
      some (BitVec.carry (width.toNat - 1) left right false) := by
    rw [hn, adderLoop_previousCarry]; simp
  have hs := asSigned_of_fits (adderLoop left right width.toNat).result width h1 h2 (fun j hj => by
    rw [adderLoop_getLsbD _ _ _ h2]; simp; omega)
  rw [aluAdd, outsideUnitDomain_eq_false h1 h2]
  simp only [Bool.false_eq_true, if_false, hp, hs, deriveFlags_eq_ok _ _ _ width h1 h2, adderLoop_carry]
  rfl

end Sys2Proof.Machine
end

