-- ==== Sys2Proof/Laws/Mask.lean ====
section
/-!
SUPPORT. The width mask unit: the mask is the low `width` bits, and the postcondition check cannot fail.
-/

namespace Sys2Proof.Machine

/-- The mask as a number: `2^width − 1`, or all 64 bits. -/
theorem widthMask_toNat (width : U8) : (widthMask width).toNat = 2 ^ min width.toNat 64 - 1 := by
  unfold widthMask Config.xlen
  split
  · rename_i h
    rw [BitVec.toNat_allOnes, Nat.min_eq_right h]
  · rename_i h
    have hlt : 2 ^ width.toNat < 2 ^ 64 := Nat.pow_lt_pow_right (by decide) (by omega)
    have hpos := Nat.two_pow_pos width.toNat
    rw [BitVec.toNat_ofNat, Nat.mod_eq_of_lt (by omega), Nat.min_eq_left (by omega)]

/-- Masking is reduction modulo `2^width` at every width: above 64 a 64-bit value is unchanged. -/
theorem masked_toNat (value : U64) (width : U8) :
    (value &&& widthMask width).toNat = value.toNat % 2 ^ width.toNat := by
  have hv := value.isLt
  rw [BitVec.toNat_and, widthMask_toNat, Nat.and_two_pow_sub_one_eq_mod]
  rcases Nat.le_total width.toNat 64 with h | h
  · rw [Nat.min_eq_left h]
  · rw [Nat.min_eq_right h, Nat.mod_eq_of_lt hv,
      Nat.mod_eq_of_lt (Nat.lt_of_lt_of_le hv (Nat.pow_le_pow_right (by decide) h))]

/-- `to_width` has a value at every input: the masked value. -/
theorem toWidth_eq_ok (value : U64) (width : U8) : toWidth value width = .ok (value &&& widthMask width) := by
  have h := Nat.mod_lt value.toNat (Nat.two_pow_pos width.toNat)
  simp only [toWidth, masked_toNat]
  rw [if_pos (by omega)]

/-- `negate` has a value at every input. -/
theorem negate_eq_ok (right : U64) (width : U8) :
    negate right width = .ok (negate64 right &&& widthMask width) :=
  toWidth_eq_ok _ _

end Sys2Proof.Machine
end

