-- ==== Sys2Proof/Laws/State.lean ====
section
/-!
SUPPORT. The small lemmas of the state: one for each field of each update, true by rfl.
-/

namespace Sys2Proof.Machine

@[simp] theorem State.present_inp (s : State) (q : Request) : (s.present q).inp = q := rfl
@[simp] theorem State.present_out (s : State) (q : Request) : (s.present q).out = Ports.undriven := rfl
@[simp] theorem State.present_ret (s : State) (q : Request) : (s.present q).ret = s.ret := rfl
@[simp] theorem State.present_present (s : State) (p q : Request) : (s.present p).present q = s.present q := rfl

@[simp] theorem State.set_ret_inp (s : State) (r : UnitReturn) : ({ s with ret := r } : State).inp = s.inp := rfl
@[simp] theorem State.set_ret_out (s : State) (r : UnitReturn) : ({ s with ret := r } : State).out = s.out := rfl
@[simp] theorem State.set_ret_ret (s : State) (r : UnitReturn) : ({ s with ret := r } : State).ret = r := rfl
@[simp] theorem State.set_out_inp (s : State) (o : Ports) : ({ s with out := o } : State).inp = s.inp := rfl
@[simp] theorem State.set_out_out (s : State) (o : Ports) : ({ s with out := o } : State).out = o := rfl
@[simp] theorem State.set_out_ret (s : State) (o : Ports) : ({ s with out := o } : State).ret = s.ret := rfl

@[simp] theorem State.reset_inp : State.reset.inp = { left := 0#64, right := 0#64, width := 0#8 } := rfl
@[simp] theorem State.reset_out : State.reset.out = Ports.undriven := rfl
@[simp] theorem State.reset_ret : State.reset.ret = UnitReturn.idle := rfl

@[simp] theorem Ports.driveAdd_add (p : Ports) (o : SumOutput) : (p.driveAdd o).add = ChannelPorts.drive o := rfl
@[simp] theorem Ports.driveAdd_sub (p : Ports) (o : SumOutput) : (p.driveAdd o).sub = p.sub := rfl
@[simp] theorem Ports.driveAdd_status (p : Ports) (o : SumOutput) : (p.driveAdd o).status = p.status := rfl
@[simp] theorem Ports.driveAdd_errOperand (p : Ports) (o : SumOutput) :
    (p.driveAdd o).errOperand = p.errOperand := rfl
@[simp] theorem Ports.driveAdd_errValue (p : Ports) (o : SumOutput) : (p.driveAdd o).errValue = p.errValue := rfl
@[simp] theorem Ports.driveAdd_errWidth (p : Ports) (o : SumOutput) : (p.driveAdd o).errWidth = p.errWidth := rfl
@[simp] theorem Ports.driveSub_sub (p : Ports) (o : SumOutput) : (p.driveSub o).sub = ChannelPorts.drive o := rfl
@[simp] theorem Ports.driveSub_add (p : Ports) (o : SumOutput) : (p.driveSub o).add = p.add := rfl
@[simp] theorem Ports.driveSub_status (p : Ports) (o : SumOutput) : (p.driveSub o).status = p.status := rfl
@[simp] theorem Ports.driveSub_errOperand (p : Ports) (o : SumOutput) :
    (p.driveSub o).errOperand = p.errOperand := rfl
@[simp] theorem Ports.driveSub_errValue (p : Ports) (o : SumOutput) : (p.driveSub o).errValue = p.errValue := rfl
@[simp] theorem Ports.driveSub_errWidth (p : Ports) (o : SumOutput) : (p.driveSub o).errWidth = p.errWidth := rfl

@[simp] theorem ChannelPorts.drive_unsigned (o : SumOutput) :
    (ChannelPorts.drive o).unsigned = some o.result.unsigned := rfl
@[simp] theorem ChannelPorts.drive_signed (o : SumOutput) :
    (ChannelPorts.drive o).signed = some o.result.signed := rfl
@[simp] theorem ChannelPorts.drive_n (o : SumOutput) : (ChannelPorts.drive o).n = some o.flags.negative := rfl
@[simp] theorem ChannelPorts.drive_z (o : SumOutput) : (ChannelPorts.drive o).z = some o.flags.zero := rfl
@[simp] theorem ChannelPorts.drive_c (o : SumOutput) : (ChannelPorts.drive o).c = some o.flags.carry := rfl
@[simp] theorem ChannelPorts.drive_v (o : SumOutput) : (ChannelPorts.drive o).v = some o.flags.overflow := rfl

end Sys2Proof.Machine
end

