-- ==== Sys2Proof/Laws/Ops.lean ====
section
/-!
SUPPORT. What the shared operations on ports and returns can do.
-/

namespace Sys2Proof.Machine

/-- A unit-level call answers a next state only when the evaluation has a value, and then only `ret` changes. -/
theorem State.returns_eq_next_iff (s t : State) (e : Except Fault UnitReturn) :
    s.returns e = .next t ↔ ∃ r, e = .ok r ∧ t = { s with ret := r } := by
  cases e <;> simp [State.returns, eq_comm]

/-- A unit-level call stops only with the fault of its evaluation. -/
theorem State.returns_eq_fault_iff (s : State) (e : Except Fault UnitReturn) (f : Fault) :
    s.returns e = .fault f ↔ e = .error f := by
  cases e <;> simp [State.returns]

/-- Nothing is refused by a unit-level call. -/
theorem State.returns_ne_refused (s : State) (e : Except Fault UnitReturn) (r : Refusal) :
    s.returns e ≠ .refused r := by
  cases e <;> simp [State.returns]

/-- A port that carries no value faults when read, and only such a port does. -/
theorem Ports.read_eq_error_iff (o : Ports) (p : Port) (f : Fault) :
    o.read p = .error f ↔ o.value p = none ∧ f = .undrivenPortRead := by
  unfold Ports.read
  cases o.value p <;> simp [readDriven, eq_comm]

/-- A port that carries a value reads as it. -/
theorem Ports.read_eq_ok_iff (o : Ports) (p : Port) (v : BitVec p.width) :
    o.read p = .ok v ↔ o.value p = some v := by
  unfold Ports.read
  cases o.value p <;> simp [readDriven]

/-- No port has a value while the outputs are undriven. -/
theorem Ports.undriven_value (p : Port) : Ports.undriven.value p = none := by
  cases p <;> rfl

/-- Reading back a channel that one adder evaluation drives gives that evaluation's output. -/
theorem ChannelPorts.read_drive (o : SumOutput) : (ChannelPorts.drive o).read = .ok o := rfl

/-- An error report drives a status that is neither OK nor the reserved code. -/
theorem Ports.reportError_status (e : ValidationError) :
    (Ports.reportError e).status = some statusOperandTooLarge ∨
      (Ports.reportError e).status = some statusUnsupportedWidth := by
  cases e <;> simp [Ports.reportError]

end Sys2Proof.Machine
end

