-- ==== Sys2Proof/Laws/Validate.lean ====
section
/-!
SUPPORT. The four outcomes of validation, in the order of the checks.
-/

namespace Sys2Proof.Machine

/-- An operand exceeds its width exactly when it does not fit it. -/
theorem exceedsWidth_eq_not_fitsWidth (value : U64) (width : U8) :
    exceedsWidth value width = !fitsWidth value width := by
  have := Nat.two_pow_pos width.toNat
  simp only [exceedsWidth, fitsWidth, ← decide_not, decide_eq_decide]
  omega

/-- Validation accepts the request it was given, and only a valid one. -/
theorem tryNew_eq_ok_iff (q v : Request) :
    tryNew q = .ok v ↔ v = q ∧ requestValid q.left q.right q.width = true := by
  have hw : unsupportedWidth q.width =
      !(decide (Config.wmin ≤ q.width.toNat) && decide (q.width.toNat ≤ Config.wmax)) := by
    rw [Bool.eq_iff_iff]
    simp only [unsupportedWidth, Bool.or_eq_true, Bool.not_eq_true', Bool.and_eq_false_iff, decide_eq_true_eq,
      decide_eq_false_iff_not]
    omega
  simp only [tryNew, exceedsWidth_eq_not_fitsWidth, requestValid, hw]
  rcases fitsWidth q.left q.width <;> rcases fitsWidth q.right q.width <;>
    rcases (decide (Config.wmin ≤ q.width.toNat)) <;> rcases (decide (q.width.toNat ≤ Config.wmax)) <;>
    simp [@eq_comm _ v]

end Sys2Proof.Machine
end

