-- ==== Sys2Proof/Laws/Calc.lean ====
section
/-!
SUPPORT. What one evaluation of a request can do: it reports the error of a rejected request or drives both channels
of a valid one, and nothing in it stops.
-/

namespace Sys2Proof.Machine

/-- The bounds that a valid request meets (R183). -/
theorem requestValid_iff (left right : U64) (width : U8) :
    requestValid left right width = true ↔
      left.toNat < 2 ^ width.toNat ∧ right.toNat < 2 ^ width.toNat ∧ 8 ≤ width.toNat ∧ width.toNat ≤ 64 := by
  simp [requestValid, fitsWidth, Config.wmin, Config.wmax, and_assoc]

/-- One evaluation has a value, and it is one of two: an error report of a rejected request, or both channels of a
valid one. -/
theorem calcPorts_cases (q : Request) :
    (∃ e, tryNew q = .error e ∧ requestValid q.left q.right q.width = false ∧
      calcPorts q = .ok (Ports.reportError e)) ∨
    (requestValid q.left q.right q.width = true ∧ tryNew q = .ok q ∧
      ∃ a b, addChannel q = .ok a ∧ subChannel q = .ok b ∧
        calcPorts q = .ok ((Ports.okStatus.driveAdd a).driveSub b)) := by
  cases h : tryNew q with
  | error e =>
    refine .inl ⟨e, rfl, ?_, by rw [calcPorts, h]⟩
    rw [Bool.eq_false_iff]
    intro hv
    rw [(tryNew_eq_ok_iff q q).mpr ⟨rfl, hv⟩] at h
    cases h
  | ok v =>
    obtain ⟨rfl, hv⟩ := (tryNew_eq_ok_iff q v).mp h
    obtain ⟨-, -, h8, h64⟩ := (requestValid_iff _ _ _).mp hv
    have ha := aluAdd_eq_ok v.left v.right v.width (by omega) h64
    have hb : subChannel v = aluAdd v.left (negate64 v.right &&& widthMask v.width) v.width := by
      rw [subChannel, negate_eq_ok]; rfl
    rw [aluAdd_eq_ok _ _ v.width (by omega) h64] at hb
    refine .inr ⟨hv, rfl, _, _, ha, hb, ?_⟩
    simp only [calcPorts, h, addChannel, ha, hb]
    rfl

/-- An evaluation answers a next state exactly when its outputs and what is then read have a value. -/
theorem State.evaluate_eq_next_iff (s t : State) (q : Request) (after : Ports → Except Fault UnitReturn) :
    s.evaluate q after = .next t ↔
      ∃ o r, calcPorts q = .ok o ∧ after o = .ok r ∧ t = { inp := q, out := o, ret := r } := by
  unfold State.evaluate
  cases h : calcPorts q with
  | error f => simp
  | ok o =>
    rw [State.returns_eq_next_iff]
    constructor
    · rintro ⟨r, hr, rfl⟩; exact ⟨o, r, rfl, hr, rfl⟩
    · rintro ⟨o', r, ho, hr, rfl⟩; cases ho; exact ⟨r, hr, rfl⟩

/-- A consumer that keeps the host duty reads nothing under an error report. -/
theorem readChannelIfOk_reportError (e : ValidationError) (c : ChannelPorts) :
    readChannelIfOk (Ports.reportError e) c = .ok .idle := by
  cases e <;> rfl

/-- A consumer that keeps the host duty reads the channel under status 00. -/
theorem readChannelIfOk_ok (a b o : SumOutput) :
    readChannelIfOk ((Ports.okStatus.driveAdd a).driveSub b) (ChannelPorts.drive o) = .ok (.channel o) := rfl

end Sys2Proof.Machine
end

