-- ==== Sys2Proof/Laws/Decode.lean ====
section
/-!
SUPPORT. The byte order of the serialisation, and the fields of the request word.
-/

namespace Sys2Proof

@[simp] theorem leBytes_length (n v : Nat) : (leBytes n v).length = n := by
  induction n generalizing v with
  | zero => rfl
  | succ n ih => simp [leBytes, ih]

/-- The number of the `n` low bytes of a number is the number modulo `256^n`. -/
theorem leValue_leBytes (n v : Nat) : leValue (leBytes n v) = v % 256 ^ n := by
  induction n generalizing v with
  | zero => simp [leBytes, leValue, Nat.mod_one]
  | succ n ih =>
    have h : 256 ^ (n + 1) = 256 * 256 ^ n := Nat.pow_succ'
    rw [leBytes, leValue, ih, BitVec.toNat_ofNat, h, Nat.mod_mul]

/-- The number of a concatenation: the first list holds the low bytes. -/
theorem leValue_append (a b : List Byte) : leValue (a ++ b) = leValue a + 256 ^ a.length * leValue b := by
  induction a with
  | nil => simp [leValue]
  | cons x xs ih =>
    rw [List.cons_append, leValue, leValue, ih, List.length_cons, Nat.pow_succ']
    ring

/-- A list of bytes is the bytes of its number. -/
theorem leBytes_leValue (bs : List Byte) : leBytes bs.length (leValue bs) = bs := by
  induction bs with
  | nil => rfl
  | cons b bs ih =>
    have h : (b.toNat + 256 * leValue bs) / 256 = leValue bs := by have := b.isLt; omega
    rw [List.length_cons, leBytes, leValue, h, ih]
    congr 1
    apply BitVec.eq_of_toNat_eq
    have := b.isLt
    simp only [BitVec.toNat_ofNat]
    omega

/-- A list of bytes is a number below `256` to its length. -/
theorem leValue_lt (bs : List Byte) : leValue bs < 256 ^ bs.length := by
  induction bs with
  | nil => simp [leValue]
  | cons b bs ih =>
    have := b.isLt
    rw [leValue, List.length_cons, Nat.pow_succ']
    omega

/-- The request word as a number: `left` in the low 64 bits, then `right`, then `width`. -/
theorem reqWord_toNat (left right : U64) (width : U8) :
    (reqWord left right width).toNat = left.toNat + 2 ^ 64 * right.toNat + 2 ^ 128 * width.toNat := by
  have hl := left.isLt
  have hr := right.isLt
  unfold reqWord
  rw [BitVec.toNat_append, BitVec.toNat_append, ← Nat.shiftLeft_add_eq_or_of_lt hl,
    ← Nat.shiftLeft_add_eq_or_of_lt hr, Nat.shiftLeft_eq, Nat.shiftLeft_eq]
  omega

@[simp] theorem reqLeft_reqWord (left right : U64) (width : U8) : reqLeft (reqWord left right width) = left := by
  apply BitVec.eq_of_toNat_eq
  have := left.isLt
  simp only [reqLeft, BitVec.extractLsb'_toNat, reqWord_toNat, Nat.shiftRight_zero]
  omega

@[simp] theorem reqRight_reqWord (left right : U64) (width : U8) : reqRight (reqWord left right width) = right := by
  apply BitVec.eq_of_toNat_eq
  have := left.isLt
  have := right.isLt
  simp only [reqRight, BitVec.extractLsb'_toNat, reqWord_toNat, Nat.shiftRight_eq_div_pow]
  omega

@[simp] theorem reqWidth_reqWord (left right : U64) (width : U8) : reqWidth (reqWord left right width) = width := by
  apply BitVec.eq_of_toNat_eq
  have := left.isLt
  have := right.isLt
  have := width.isLt
  simp only [reqWidth, BitVec.extractLsb'_toNat, reqWord_toNat, Nat.shiftRight_eq_div_pow]
  omega

/-- Decoding the word of three fields gives the CALC of these fields. -/
theorem decodeWord_reqWord (left right : U64) (width : U8) :
    decodeWord (reqWord left right width) = .calcOp left right width := by
  simp [decodeWord]

end Sys2Proof
end

