-- ==== Sys2Proof/Laws/PerInstr.lean ====
section
/-!
SUPPORT. A fact about every operation as syntax, one lemma for each constructor: the operation that is performed for
its word is canonical, has the same bytes, and is well formed when the operation is.
-/

namespace Sys2Proof.Laws.Canon

/-- `canon` is idempotent and keeps the encoding and well-formedness, and exactly the operations that have an encoding
have bytes. -/
def Statement (i : Instr) : Prop :=
  i.canon.canon = i.canon ∧ encode i.canon = encode i ∧ (encode i).isSome = i.hasEncoding ∧
    (i.wellFormed = true → i.canon.wellFormed = true)

theorem calcOp (left right : U64) (width : U8) : Statement (.calcOp left right width) := ⟨rfl, rfl, rfl, id⟩
theorem add (left right : U64) (width : U8) : Statement (.add left right width) := ⟨rfl, rfl, rfl, id⟩
theorem sub (left right : U64) (width : U8) : Statement (.sub left right width) := ⟨rfl, rfl, rfl, id⟩
theorem tryNew (left right : U64) (width : U8) : Statement (.tryNew left right width) := ⟨rfl, rfl, rfl, id⟩
theorem toWidth (value : U64) (width : U8) : Statement (.toWidth value width) := ⟨rfl, rfl, rfl, id⟩
theorem negate (right : U64) (width : U8) : Statement (.negate right width) := ⟨rfl, rfl, rfl, id⟩
theorem aluAdd (left right : U64) (width : U8) : Statement (.aluAdd left right width) := ⟨rfl, rfl, rfl, id⟩
theorem deriveFlags (result : U64) (carry previousCarry : Bool) (width : U8) :
    Statement (.deriveFlags result carry previousCarry width) := ⟨rfl, rfl, rfl, id⟩
theorem asSigned (value : U64) (width : U8) : Statement (.asSigned value width) := ⟨rfl, rfl, rfl, id⟩

end Sys2Proof.Laws.Canon
end

