-- ==== Sys2Proof/Tests/Slice0.lean ====
section
/-!
SUPPORT. The model's own tests: the well-formedness smoke tests, decoding of written-out words, at most two tests an
operation (the expected results are the vectors of 95_test_vectors.md), and a witness for each statement's hypotheses.
-/

namespace Sys2Proof.Tests

open Sys2Proof.Machine

/-- The next state of an outcome, if it is one. -/
def nextOf (o : Host.Outcome State Fault Refusal) : Option State :=
  match o with
  | .next s => some s
  | .fault _ => none
  | .refused _ => none

/-- The fault of an outcome, if it is one. -/
def faultOf (o : Host.Outcome State Fault Refusal) : Option Fault :=
  match o with
  | .next _ => none
  | .fault f => some f
  | .refused _ => none

/-- What one operation at reset returns to its caller. -/
def returned (i : Instr) : Option UnitReturn := (nextOf (exec i State.reset)).map State.ret

/-- The outputs one step gives for a request presented at reset. -/
def outputs (width left right : Nat) : Option Ports :=
  (nextOf (step (State.reset.present
    { left := BitVec.ofNat 64 left, right := BitVec.ofNat 64 right, width := BitVec.ofNat 8 width }))).map State.out

/-- A channel `{u, s, NZCV}` in the notation of 95_test_vectors.md. -/
def channel (u : Nat) (s : Int) (n z c v : Bool) : ChannelPorts :=
  { unsigned := some (BitVec.ofNat 64 u), signed := some (BitVec.ofInt 64 s), n := some n, z := some z, c := some c,
    v := some v }

/-- A sum `{u, s, NZCV}` in the notation of 95_test_vectors.md. -/
def sumOf (u : Nat) (s : Int) (n z c v : Bool) : SumOutput :=
  { result := { unsigned := BitVec.ofNat 64 u, signed := BitVec.ofInt 64 s },
    flags := { negative := n, zero := z, overflow := v, carry := c } }

/-! ### Well-formedness: an ill-formed term for each check -/

theorem test_wf_aluAdd_width_zero : (Instr.aluAdd 1#64 1#64 0#8).wellFormed = false := by decide
theorem test_wf_aluAdd_width_65 : (Instr.aluAdd 1#64 1#64 65#8).wellFormed = false := by decide
theorem test_wf_deriveFlags_width_zero : (Instr.deriveFlags 0#64 false false 0#8).wellFormed = false := by decide
theorem test_wf_deriveFlags_width_65 : (Instr.deriveFlags 0#64 false false 65#8).wellFormed = false := by decide
theorem test_wf_deriveFlags_result_too_wide : (Instr.deriveFlags 256#64 false false 8#8).wellFormed = false := by decide
theorem test_wf_asSigned_width_zero : (Instr.asSigned 1#64 0#8).wellFormed = false := by decide
theorem test_wf_asSigned_width_65 : (Instr.asSigned 1#64 65#8).wellFormed = false := by decide
theorem test_wf_invalid_request_is_a_calc : (Instr.calcOp 256#64 0#64 4#8).wellFormed = true := by decide
theorem test_requestValid_left : requestValid 256#64 0#64 8#8 = false := by decide
theorem test_requestValid_right : requestValid 0#64 256#64 8#8 = false := by decide
theorem test_requestValid_width_7 : requestValid 0#64 0#64 7#8 = false := by decide
theorem test_requestValid_width_65 : requestValid 0#64 0#64 65#8 = false := by decide

/-! ### Decoding: words and bytes written out from R71 and R72 -/

/-- R71's own example: `width=8, left=255, right=1` is `0x08_0000000000000001_00000000000000FF`. -/
theorem test_decode_word_of_calc :
    decodeTableWord 136 0x080000000000000001_00000000000000FF = some (.calcOp 255#64 1#64 8#8) := by decide

/-- R79: the word of `ADD w=16, l=0x1234, r=0xABCD` is that of its CALC. -/
theorem test_decode_word_of_add :
    (encodeWord (.add 0x1234#64 0xABCD#64 16#8)).map BitVec.toNat = some 0x10000000000000ABCD_0000000000001234 ∧
      decodeTableWord 136 0x10000000000000ABCD_0000000000001234 = some (.calcOp 0x1234#64 0xABCD#64 16#8) := by
  decide

/-- R79: the word of `SUB w=64, l=0, r=2^63` is that of its CALC. -/
theorem test_decode_word_of_sub :
    (encodeWord (.sub 0#64 0x8000000000000000#64 64#8)).map BitVec.toNat = some 0x408000000000000000_0000000000000000 ∧
      decodeTableWord 136 0x408000000000000000_0000000000000000 = some (.calcOp 0#64 0x8000000000000000#64 64#8) := by
  decide

/-- R72: bytes 0-7 `left`, bytes 8-15 `right`, least significant first, byte 16 `width`. -/
theorem test_decode_bytes :
    decode [0x34#8, 0x12#8, 0#8, 0#8, 0#8, 0#8, 0#8, 0#8, 0xCD#8, 0xAB#8, 0#8, 0#8, 0#8, 0#8, 0#8, 0#8, 16#8] =
      .ok (.calcOp 0x1234#64 0xABCD#64 16#8) := by decide

theorem test_decode_rejects_short : decode [0#8] = .error (.tooShort 1) := by decide
theorem test_decode_rejects_long : decode (List.replicate 18 0#8) = .error (.tooLong 18) := by decide

/-- R78: the unit functions have no encoding. -/
theorem test_units_have_no_encoding :
    encode (.tryNew 0#64 0#64 8#8) = none ∧ encode (.toWidth 0#64 8#8) = none ∧ encode (.negate 0#64 8#8) = none ∧
      encode (.aluAdd 0#64 0#64 8#8) = none ∧ encode (.deriveFlags 0#64 false false 8#8) = none ∧
      encode (.asSigned 0#64 8#8) = none := by decide

/-! ### One operation at a time: the vectors of 95_test_vectors.md -/

/-- S1, with the SUB channel of its F-CALC row. -/
theorem test_calc_s1 : outputs 8 255 1 =
    some { Ports.okStatus with
      add := channel 0 0 false true true false, sub := channel 254 (-2) true false true false } := by decide

/-- F-CALC `w=64, l=0, r=2^63` (R210 at width 64). -/
theorem test_calc_width_64 : outputs 64 0 (2 ^ 63) =
    some { Ports.okStatus with
      add := channel (2 ^ 63) (-2 ^ 63) true false false false,
      sub := channel (2 ^ 63) (-2 ^ 63) true false false false } := by decide +kernel

/-- F-VAL `w=8, l=300, r=300`: the right failure is hidden. -/
theorem test_error_left_first : outputs 8 300 300 =
    some { Ports.undriven with
      status := some 1#2, errOperand := some 0#1, errValue := some 300#64, errWidth := some 8#8 } := by decide

/-- F-VAL `w=255, l=2^64−1, r=0`. -/
theorem test_error_width_255 : outputs 255 (2 ^ 64 - 1) 0 =
    some { Ports.undriven with status := some 2#2, errWidth := some 255#8 } := by decide

/-- F-CALC `w=8, l=150, r=105`: `add` reads the ADD channel, not the SUB channel. -/
theorem test_add_reads_add : returned (.add 150#64 105#64 8#8) =
    some (.channel (sumOf 255 (-1) true false false false)) := by decide

/-- P3 step 1: an invalid request is an error, and no channel is read. -/
theorem test_add_of_invalid_request : returned (.add 20#64 0#64 4#8) = some .idle := by decide

/-- F-CALC `w=8, l=255, r=128`: V = 1 though the difference fits (R210). -/
theorem test_sub_at_most_negative : returned (.sub 255#64 128#64 8#8) =
    some (.channel (sumOf 127 127 false false true true)) := by decide

/-- P4 step 1: C = 0 with no borrow (R209). -/
theorem test_sub_of_zero : returned (.sub 5#64 0#64 8#8) =
    some (.channel (sumOf 5 5 false false false false)) := by decide

/-- R186: `w = 64, l = r = 2^64 − 1` is Ok. -/
theorem test_tryNew_full_width : returned (.tryNew (-1#64) (-1#64) 64#8) =
    some (.accepted { left := -1#64, right := -1#64, width := 64#8 }) := by decide

/-- F-VAL `w=4, l=20, r=0`: the operand check comes before the width check. -/
theorem test_tryNew_operand_before_width : returned (.tryNew 20#64 0#64 4#8) =
    some (.rejected (.operandTooLarge .left 20#64 4#8)) := by decide

/-- F-MASK, width 0 and width 255. -/
theorem test_toWidth_ends : returned (.toWidth (-1#64) 0#8) = some (.masked 0#64) ∧
    returned (.toWidth (-1#64) 255#8) = some (.masked (-1#64)) := by decide

/-- F-MASK `to_width(0xFFFF_FFFF_FFFF_FFF3, 4)`. -/
theorem test_toWidth_low_bits : returned (.toWidth 0xFFFFFFFFFFFFFFF3#64 4#8) = some (.masked 3#64) := by decide

/-- F-NEG `negate(0, 64)` and `negate(0x1234, 8)`. -/
theorem test_negate_wraps : returned (.negate 0#64 64#8) = some (.negated 0#64) ∧
    returned (.negate 0x1234#64 8#8) = some (.negated 0xCC#64) := by decide

/-- F-NEG `negate(5, 200)`. -/
theorem test_negate_above_64 : returned (.negate 5#64 200#8) = some (.negated 0xFFFFFFFFFFFFFFFB#64) := by decide

/-- F-ADD `alu_add(0x1FF, 1, 8)`: bit 8 of `left` is ignored. -/
theorem test_aluAdd_ignores_high_bits : returned (.aluAdd 0x1FF#64 1#64 8#8) =
    some (.sum (sumOf 0 0 false true true false)) := by decide

/-- F-ADD `alu_add(1, 1, 1)`, and the faults at widths 0 and 65. -/
theorem test_aluAdd_width_ends : returned (.aluAdd 1#64 1#64 1#8) = some (.sum (sumOf 0 0 false true true true)) ∧
    faultOf (exec (.aluAdd 1#64 1#64 0#8) State.reset) = some .unitWidthOutOfDomain ∧
    faultOf (exec (.aluAdd 1#64 1#64 65#8) State.reset) = some .unitWidthOutOfDomain := by decide

/-- R140's worked example: `result = 128`, `c[8] = 0`, `c[7] = 1`. -/
theorem test_deriveFlags : returned (.deriveFlags 128#64 false true 8#8) =
    some (.flags { negative := true, zero := false, overflow := true, carry := false }) := by decide

/-- R126: `derive_flags` at width 65. -/
theorem test_deriveFlags_fault :
    faultOf (exec (.deriveFlags 0#64 false false 65#8) State.reset) = some .unitWidthOutOfDomain := by decide

/-- F-SIGN `as_signed(0x280, 8) = −384` (R163), and S7. -/
theorem test_asSigned_literal : returned (.asSigned 0x280#64 8#8) = some (.signed (BitVec.ofInt 64 (-384))) ∧
    returned (.asSigned 0x8000000000000000#64 64#8) = some (.signed (BitVec.ofInt 64 (-2 ^ 63))) := by decide

/-- R164: `as_signed(v, 0)`. -/
theorem test_asSigned_fault :
    faultOf (exec (.asSigned 1#64 0#8) State.reset) = some .unitWidthOutOfDomain := by decide

/-- U5 of 93_implementation_defined.md: a consumer that sees status 11. -/
theorem test_reserved_status : Status.ofCode 3#2 = .error .reservedStatus := by decide

/-- R74: a consumer reads the three status codes. -/
theorem test_status_codes : Status.ofCode 0#2 = .ok .ok ∧ Status.ofCode 1#2 = .ok .operandTooLarge ∧
    Status.ofCode 2#2 = .ok .unsupportedWidth := by decide

/-! ### Witnesses: concrete states and operands that meet a statement's hypotheses -/

/-- DecodeOfEncodeGivesTheCalcBack: an operation that has an encoding. -/
theorem witness_DecodeOfEncodeGivesTheCalcBack :
    encode (.add 1#64 2#64 8#8) = some [1#8, 0#8, 0#8, 0#8, 0#8, 0#8, 0#8, 0#8, 2#8, 0#8, 0#8, 0#8, 0#8, 0#8, 0#8, 0#8,
      8#8] := by decide

/-- EncodeOfDecodeGivesTheBytesBack, and DecoderTakesOneLengthOnly at length 17. -/
theorem witness_EncodeOfDecodeGivesTheBytesBack :
    decode (List.replicate 17 0xFF#8) = .ok (.calcOp (-1#64) (-1#64) 255#8) ∧
      (List.replicate 17 0xFF#8).length = 17 := by decide

/-- DecoderTakesOneLengthOnly: the boundary lengths 16 and 18. -/
theorem witness_DecoderTakesOneLengthOnly :
    (List.replicate 16 0#8).length < 17 ∧ 17 < (List.replicate 18 0#8).length := by decide

/-- StepRunsTheRequestOnTheInputPorts: the bytes on the input ports at reset decode. -/
theorem witness_StepRunsTheRequestOnTheInputPorts :
    decode (presentedBytes State.reset.inp) = .ok (.calcOp 0#64 0#64 0#8) := by decide

/-- PlacedWordIsEvaluatedNext: the shortest and the full table word. -/
theorem witness_PlacedWordIsEvaluatedNext :
    0 ≤ 136 ∧ decodeTableWord 0 0 = some (.calcOp 0#64 0#64 0#8) ∧ 136 ≤ 136 ∧
      decodeTableWord 136 0x080000000000000001_00000000000000FF = some (.calcOp 255#64 1#64 8#8) := by decide

/-- StepDependsOnTheRequestAlone: two different states with one request. -/
theorem witness_StepDependsOnTheRequestAlone :
    State.reset.inp = ({ State.reset with ret := .masked 1#64 } : State).inp ∧
      State.reset ≠ { State.reset with ret := .masked 1#64 } := by decide

/-- RequestsAreIndependentAndIdempotent, EveryStepKeepsThePortInvariant: the step at reset answers a next state. -/
theorem witness_RequestsAreIndependentAndIdempotent :
    step State.reset = .next
      { State.reset with out := { Ports.undriven with status := some 2#2, errWidth := some 0#8 } } := by rfl

/-- ToWidthReducesModuloTwoToTheWidth: each clause's width at its boundary. -/
theorem witness_ToWidthReducesModuloTwoToTheWidth :
    64 ≤ (64#8 : U8).toNat ∧ (0#8 : U8).toNat = 0 := by decide

/-- The statements about valid requests: the least and the greatest width, with the greatest operands. -/
theorem witness_requestValid :
    requestValid 255#64 255#64 8#8 = true ∧ requestValid (-1#64) (-1#64) 64#8 = true := by decide

/-- NegateIsModularNegation: each clause at a boundary. -/
theorem witness_NegateIsModularNegation :
    (64#8 : U8).toNat ≤ 64 ∧ 64 ≤ (64#8 : U8).toNat ∧
      (1 ≤ (8#8 : U8).toNat ∧ (8#8 : U8).toNat ≤ 64 ∧ (128#64 : U64).toNat = 2 ^ ((8#8 : U8).toNat - 1)) := by decide

/-- The statements over the units' widths: the least and the greatest. -/
theorem witness_unit_widths :
    (1 ≤ (1#8 : U8).toNat ∧ (1#8 : U8).toNat ≤ 64) ∧ (1 ≤ (64#8 : U8).toNat ∧ (64#8 : U8).toNat ≤ 64) := by decide

/-- AluAddFollowsTheBitSerialAlgorithm: the carry chain of S1, `c[0..8] = 0,1,1,1,1,1,1,1,1`. -/
theorem witness_AluAddFollowsTheBitSerialAlgorithm :
    (fun i : Nat => decide (0 < i)) 0 = false ∧
      ∀ i, i < (8#8 : U8).toNat → (fun i : Nat => decide (0 < i)) (i + 1) =
        decide (2 ≤ ((fun i : Nat => decide (0 < i)) i).toNat + ((255#64 : U64).getLsbD i).toNat +
          ((1#64 : U64).getLsbD i).toNat) := by decide

/-- AluAddIgnoresBitsAboveTheWidth: operands that differ above bit 7 only. -/
theorem witness_AluAddIgnoresBitsAboveTheWidth :
    (∀ i, i < (8#8 : U8).toNat → (0x1FF#64 : U64).getLsbD i = (0xFF#64 : U64).getLsbD i) ∧
      (0x1FF#64 : U64) ≠ 0xFF#64 := by decide

/-- FlagCornerCases: each clause's condition, at a boundary: `255 + 1` and `128 + 128` at width 8, and width 1. -/
theorem witness_FlagCornerCases :
    (255#64 : U64).toNat % 2 ^ 8 + (1#64 : U64).toNat % 2 ^ 8 = 2 ^ 8 ∧
      (128#64 : U64).toNat % 2 ^ 8 = 2 ^ (8 - 1) ∧ (1#8 : U8).toNat = 1 ∧
      returned (.aluAdd 128#64 128#64 8#8) = some (.sum (sumOf 0 0 false true true true)) := by decide

/-- CarryAndOverflowAreIndependent: the least width it is about. -/
theorem witness_CarryAndOverflowAreIndependent : 2 ≤ (2#8 : U8).toNat ∧ (2#8 : U8).toNat ≤ 64 := by decide

/-- The statements of a fault outside the units' widths: both ends. -/
theorem witness_widths_outside_the_domain :
    ((0#8 : U8).toNat = 0 ∨ 64 < (0#8 : U8).toNat) ∧ ((65#8 : U8).toNat = 0 ∨ 64 < (65#8 : U8).toNat) := by decide

/-- DeriveFlagsGivesAllFourFlags, DeriveFlagsReadsAWideResultLiterally: the greatest result that fits width 8, and the
least that does not. -/
theorem witness_DeriveFlags_results :
    (255#64 : U64).toNat < 2 ^ (8#8 : U8).toNat ∧ 2 ^ (8#8 : U8).toNat ≤ (256#64 : U64).toNat := by decide

/-- AsSignedFillsAboveTheOccupiedBits: a clear and a set top bit. -/
theorem witness_AsSignedFillsAboveTheOccupiedBits :
    (0x100#64 : U64).getLsbD ((8#8 : U8).toNat - 1) = false ∧
      (0x280#64 : U64).getLsbD ((8#8 : U8).toNat - 1) = true := by decide

/-- AsSignedIsSignExtensionOnBoundedValues: the greatest bounded value. -/
theorem witness_AsSignedIsSignExtensionOnBoundedValues : (255#64 : U64).toNat < 2 ^ (8#8 : U8).toNat := by decide

/-- NoOperandIsTooLargeAtFullWidth: width 64 and a greater one. -/
theorem witness_NoOperandIsTooLargeAtFullWidth : 64 ≤ (64#8 : U8).toNat ∧ 64 ≤ (255#8 : U8).toNat := by decide

/-- CalcReportsOperandTooLarge: one past the greatest operand, on each side, and the greatest width below 64. -/
theorem witness_CalcReportsOperandTooLarge :
    (63#8 : U8).toNat < 64 ∧
    2 ^ (8#8 : U8).toNat - 1 < (256#64 : U64).toNat ∧
      ((255#64 : U64).toNat ≤ 2 ^ (8#8 : U8).toNat - 1 ∧ 2 ^ (8#8 : U8).toNat - 1 < (256#64 : U64).toNat) := by decide

/-- CalcReportsUnsupportedWidth: widths 7 and 65, and an accepted request of width 8. -/
theorem witness_CalcReportsUnsupportedWidth :
    ((127#64 : U64).toNat ≤ 2 ^ (7#8 : U8).toNat - 1 ∧ ((7#8 : U8).toNat < 8 ∨ 64 < (7#8 : U8).toNat)) ∧
      ((0#64 : U64).toNat ≤ 2 ^ (65#8 : U8).toNat - 1 ∧ ((65#8 : U8).toNat < 8 ∨ 64 < (65#8 : U8).toNat)) ∧
      returned (.tryNew 255#64 255#64 8#8) =
        some (.accepted { left := 255#64, right := 255#64, width := 8#8 }) := by decide

/-- StatusSaysWhyARequestIsInvalid: each status and each operand code occurs. -/
theorem witness_StatusSaysWhyARequestIsInvalid :
    ((outputs 8 256 0).bind Ports.errOperand = some 0#1 ∧ (outputs 8 0 256).bind Ports.errOperand = some 1#1) ∧
      ((outputs 8 256 0).bind Ports.status = some 1#2 ∧ (outputs 7 0 0).bind Ports.status = some 2#2 ∧
        (outputs 8 255 255).bind Ports.status = some 0#2) := by decide

/-- ChannelFormsOfAnInvalidRequestReportItsError: an invalid operand and an invalid width. -/
theorem witness_ChannelFormsOfAnInvalidRequestReportItsError :
    requestValid 256#64 0#64 8#8 = false ∧ requestValid 5#64 3#64 4#8 = false := by decide

/-- CalcIsNativeAddAndSubtract: the `w`-bit readings of a valid request's operands. -/
theorem witness_CalcIsNativeAddAndSubtract :
    requestValid 255#64 1#64 8#8 = true ∧ (255#8 : BitVec 8) = (255#64 : U64).setWidth (8#8 : U8).toNat ∧
      (1#8 : BitVec 8) = (1#64 : U64).setWidth (8#8 : U8).toNat := by decide

/-- SubOverflowLaw: each clause's condition with its difference: `right = 0`, `right = 2^7`, any other. -/
theorem witness_SubOverflowLaw :
    (requestValid 5#64 0#64 8#8 = true ∧
        (5 : Int) = ((5#64 : U64).setWidth 8).toInt - ((0#64 : U64).setWidth 8).toInt) ∧
      (requestValid 255#64 128#64 8#8 = true ∧ (128#64 : U64).toNat = 2 ^ (8 - 1) ∧
        (127 : Int) = ((255#64 : U64).setWidth 8).toInt - ((128#64 : U64).setWidth 8).toInt) ∧
      (requestValid 128#64 1#64 8#8 = true ∧ (1#64 : U64).toNat ≠ 2 ^ (8 - 1) ∧
        (-129 : Int) = ((128#64 : U64).setWidth 8).toInt - ((1#64 : U64).setWidth 8).toInt) := by decide

/-- PortsAreDrivenAsTheStatusSays: a driven and an undriven port under each status. -/
theorem witness_PortsAreDrivenAsTheStatusSays :
    (Port.addC.drivenUnder 0#2 = true ∧ Port.errWidth.drivenUnder 0#2 = false) ∧
      (Port.errValue.drivenUnder 1#2 = true ∧ Port.subV.drivenUnder 1#2 = false) ∧
      (Port.errWidth.drivenUnder 2#2 = true ∧ Port.errOperand.drivenUnder 2#2 = false) := by decide

/-- UnitCallsChangeNoPort, ReservedStatusIsNeverDriven: a unit call that answers a next state at reset, whose status is
not the reserved one. -/
theorem witness_UnitCallsChangeNoPort :
    (Instr.negate 5#64 8#8).hasEncoding = false ∧
      exec (.negate 5#64 8#8) State.reset = .next { State.reset with ret := .negated 251#64 } ∧
      State.reset.out.status ≠ some 3#2 := ⟨by decide, by rfl, by decide⟩

/-- EveryOperationKeepsThePortInvariant: a state that meets the invariant, and an operation that answers a next state
at it. -/
theorem witness_EveryOperationKeepsThePortInvariant :
    State.reset.Inv ∧ (nextOf (exec (.add 127#64 1#64 8#8) State.reset)).isSome = true :=
  ⟨⟨.inl rfl, .inl rfl, fun _ h => nomatch h⟩, by decide⟩

end Sys2Proof.Tests
end

/-!
PROOFS. The serialised request byte by byte (30_encoding.md R72), and the four outcomes of a CALC in the order of the
checks (45_request_validation.md R184).
-/

namespace Sys2Proof

/-- The bytes of a number, low byte first: byte `k` is the number shifted right by `8k` bits. -/
theorem leBytes_eq_map_range (n v : Nat) :
    leBytes n v = (List.range n).map fun k => BitVec.ofNat 8 (v >>> (8 * k)) := by
  induction n generalizing v with
  | zero => rfl
  | succ n ih =>
    have hshift (k : Nat) : v >>> (8 * (k + 1)) = (v / 256) >>> (8 * k) := by
      rw [Nat.mul_succ, Nat.add_comm, Nat.shiftRight_add, Nat.shiftRight_eq_div_pow v 8]
    rw [leBytes, ih, List.range_succ_eq_map, List.map_cons, List.map_map]
    simp [Function.comp_def, hshift]

/-- The bytes of a bit pattern, low byte first: byte `k` is its bits `8k+7..8k`. -/
theorem leBytes_toNat {m : Nat} (n : Nat) (x : BitVec m) :
    leBytes n x.toNat = (List.range n).map fun k => x.extractLsb' (8 * k) 8 :=
  leBytes_eq_map_range n x.toNat

/-- One byte of a bit pattern's `n` low bytes. -/
theorem getElem?_leBytes_toNat {m n k : Nat} (x : BitVec m) (hk : k < n) :
    (leBytes n x.toNat)[k]? = some (x.extractLsb' (8 * k) 8) := by
  simp [leBytes_toNat, hk]

@[simp] theorem reqSerialise_length (left right : U64) (width : U8) :
    (reqSerialise left right width).length = 17 := by
  simp [reqSerialise]

/-- Bytes 0 to 7 of a request are `left`. -/
theorem getElem?_reqSerialise_left (left right : U64) (width : U8) {k : Nat} (hk : k < 8) :
    (reqSerialise left right width)[k]? = some (left.extractLsb' (8 * k) 8) := by
  rw [reqSerialise, List.append_assoc, List.getElem?_append_left (by simpa using hk),
    getElem?_leBytes_toNat left hk]

/-- Bytes 8 to 15 of a request are `right`. -/
theorem getElem?_reqSerialise_right (left right : U64) (width : U8) {k : Nat} (hk : k < 8) :
    (reqSerialise left right width)[8 + k]? = some (right.extractLsb' (8 * k) 8) := by
  rw [reqSerialise, List.append_assoc, List.getElem?_append_right (by simp), leBytes_length,
    Nat.add_sub_cancel_left, List.getElem?_append_left (by simpa using hk), getElem?_leBytes_toNat right hk]

/-- Byte 16 of a request is `width`. -/
theorem getElem?_reqSerialise_width (left right : U64) (width : U8) :
    (reqSerialise left right width)[16]? = some width := by
  rw [reqSerialise, List.getElem?_append_right (by simp)]
  simp

/-- Settles O1: the three fields of the serialisation, each read byte by byte. -/
theorem serialisedRequestIsLittleEndianByField : Obligations.SerialisedRequestIsLittleEndianByField :=
  fun left right width =>
    ⟨reqSerialise left right width, rfl, reqSerialise_length left right width,
      fun _ hk => getElem?_reqSerialise_left left right width hk,
      fun _ hk => getElem?_reqSerialise_right left right width hk,
      getElem?_reqSerialise_width left right width⟩

namespace Machine

/-- An operand exceeds the width exactly when it is `2^width` or more (R181). -/
theorem exceedsWidth_iff (value : U64) (width : U8) :
    exceedsWidth value width = true ↔ 2 ^ width.toNat ≤ value.toNat := by
  have := Nat.two_pow_pos width.toNat
  rw [exceedsWidth, decide_eq_true_eq]
  omega

/-- The widths that validation refuses (R183). -/
theorem unsupportedWidth_iff (width : U8) :
    unsupportedWidth width = true ↔ width.toNat < 8 ∨ 64 < width.toNat := by
  simp [unsupportedWidth, Config.wmin, Config.wmax, or_comm]

/-- No 64-bit operand exceeds a width of 64 or more (R185). -/
theorem toNat_lt_two_pow_of_le (value : U64) {n : Nat} (h : 64 ≤ n) : value.toNat < 2 ^ n :=
  Nat.lt_of_lt_of_le value.isLt (Nat.pow_le_pow_right (by decide) h)

/-- The four outcomes of validation, in the order of the checks (R180, R184). -/
theorem tryNew_cases (left right : U64) (width : U8) :
    (2 ^ width.toNat ≤ left.toNat ∧
      tryNew ⟨left, right, width⟩ = .error (.operandTooLarge .left left width)) ∨
    (¬ 2 ^ width.toNat ≤ left.toNat ∧ 2 ^ width.toNat ≤ right.toNat ∧
      tryNew ⟨left, right, width⟩ = .error (.operandTooLarge .right right width)) ∨
    (¬ 2 ^ width.toNat ≤ left.toNat ∧ ¬ 2 ^ width.toNat ≤ right.toNat ∧ (width.toNat < 8 ∨ 64 < width.toNat) ∧
      tryNew ⟨left, right, width⟩ = .error (.unsupportedWidth width)) ∨
    (¬ 2 ^ width.toNat ≤ left.toNat ∧ ¬ 2 ^ width.toNat ≤ right.toNat ∧ (8 ≤ width.toNat ∧ width.toNat ≤ 64) ∧
      tryNew ⟨left, right, width⟩ = .ok ⟨left, right, width⟩) := by
  have hwidth : (8 ≤ width.toNat ∧ width.toNat ≤ 64) ↔ ¬ (width.toNat < 8 ∨ 64 < width.toNat) := by omega
  simp only [hwidth, ← exceedsWidth_iff, ← unsupportedWidth_iff, tryNew]
  by_cases hl : exceedsWidth left width = true
  · exact .inl ⟨hl, if_pos hl⟩
  by_cases hr : exceedsWidth right width = true
  · exact .inr (.inl ⟨hl, hr, by rw [if_neg hl, if_pos hr]⟩)
  by_cases hw : unsupportedWidth width = true
  · exact .inr (.inr (.inl ⟨hl, hr, hw, by rw [if_neg hl, if_neg hr, if_pos hw]⟩))
  · exact .inr (.inr (.inr ⟨hl, hr, hw, by rw [if_neg hl, if_neg hr, if_neg hw]⟩))

/-- A rejected request drives its error report (R206). -/
theorem calcPorts_of_tryNew_error {q : Request} {e : ValidationError} (h : tryNew q = .error e) :
    calcPorts q = .ok (Ports.reportError e) := by
  rw [calcPorts, h]

/-- An accepted request drives status 00 and both channels (R206). -/
theorem calcPorts_of_tryNew_ok {q : Request} (h : tryNew q = .ok q) :
    ∃ a b, calcPorts q = .ok ((Ports.okStatus.driveAdd a).driveSub b) := by
  obtain ⟨e, he, -, -⟩ | ⟨-, -, a, b, -, -, ho⟩ := calcPorts_cases q
  · rw [h] at he; cases he
  · exact ⟨a, b, ho⟩

/-- CALC answers with the outputs of its request's evaluation and nothing returned. -/
theorem exec_calcOp_eq_next {left right : U64} {width : U8} {o : Ports}
    (h : calcPorts ⟨left, right, width⟩ = .ok o) (s : State) :
    exec (.calcOp left right width) s =
      .next { inp := ⟨left, right, width⟩, out := o, ret := .idle } :=
  (State.evaluate_eq_next_iff _ _ _ _).mpr ⟨o, .idle, h, rfl, rfl⟩

@[simp] theorem Ports.okStatus_status : Ports.okStatus.status = some statusOk := rfl
@[simp] theorem Ports.okStatus_errOperand : Ports.okStatus.errOperand = none := rfl
@[simp] theorem Ports.reportError_operandTooLarge_status (n : OperandName) (v : U64) (w : U8) :
    (Ports.reportError (.operandTooLarge n v w)).status = some statusOperandTooLarge := rfl
@[simp] theorem Ports.reportError_operandTooLarge_errOperand (n : OperandName) (v : U64) (w : U8) :
    (Ports.reportError (.operandTooLarge n v w)).errOperand = some n.code := rfl
@[simp] theorem Ports.reportError_unsupportedWidth_status (w : U8) :
    (Ports.reportError (.unsupportedWidth w)).status = some statusUnsupportedWidth := rfl
@[simp] theorem Ports.reportError_unsupportedWidth_errOperand (w : U8) :
    (Ports.reportError (.unsupportedWidth w)).errOperand = none := rfl

/-- An error report drives no port of the ADD channel. -/
@[simp] theorem Ports.reportError_add (e : ValidationError) :
    (Ports.reportError e).add = ChannelPorts.undriven := by
  cases e <;> rfl

/-- An error report drives no port of the SUB channel. -/
@[simp] theorem Ports.reportError_sub (e : ValidationError) :
    (Ports.reportError e).sub = ChannelPorts.undriven := by
  cases e <;> rfl

/-- Settles O35: the four outcomes of validation are exclusive, and each drives a status and an `err_operand` of its
own. -/
theorem statusSaysWhyARequestIsInvalid : Obligations.StatusSaysWhyARequestIsInvalid := by
  intro left right width s
  obtain ⟨hl, h⟩ | ⟨hl, hr, h⟩ | ⟨hl, hr, hw, h⟩ | ⟨hl, hr, hw, h⟩ :=
    tryNew_cases left right width
  case inl =>
    refine ⟨_, exec_calcOp_eq_next (calcPorts_of_tryNew_error h) s, ?_⟩
    have hw : ¬ 64 ≤ width.toNat := fun h64 => Nat.not_lt.mpr hl (toNat_lt_two_pow_of_le left h64)
    simp [statusOperandTooLarge, OperandName.code, hl, hw]
  case inr.inl =>
    refine ⟨_, exec_calcOp_eq_next (calcPorts_of_tryNew_error h) s, ?_⟩
    have hw : ¬ 64 ≤ width.toNat := fun h64 => Nat.not_lt.mpr hr (toNat_lt_two_pow_of_le right h64)
    simp [statusOperandTooLarge, OperandName.code, hl, hr, hw]
  case inr.inr.inl =>
    refine ⟨_, exec_calcOp_eq_next (calcPorts_of_tryNew_error h) s, ?_⟩
    have hbounds : ¬ (8 ≤ width.toNat ∧ width.toNat ≤ 64) := by omega
    simp [statusUnsupportedWidth, hl, hr, hw, hbounds]
  case inr.inr.inr =>
    obtain ⟨a, b, ho⟩ := calcPorts_of_tryNew_ok h
    refine ⟨_, exec_calcOp_eq_next ho s, ?_⟩
    simp [statusOk, hl, hr, hw]

end Machine

end Sys2Proof

/-!
PROOFS. The width mask unit as one step (41_width_mask_unit.md R100).
-/

namespace Sys2Proof

namespace Machine

/-- The mask as a word: all 64 bits from width 64 on, `2^width - 1` below (R100). -/
theorem widthMask_eq_ite (width : U8) :
    widthMask width =
      if 64 ≤ width.toNat then 0xFFFFFFFFFFFFFFFF#64 else BitVec.ofNat 64 (2 ^ width.toNat - 1) :=
  rfl

/-- TO_WIDTH returns the masked value, and every other part of the state stands (R100). -/
theorem exec_toWidth_eq_next (value : U64) (width : U8) (s : State) :
    exec (.toWidth value width) s = .next { s with ret := .masked (value &&& widthMask width) } :=
  (State.returns_eq_next_iff _ _ _).mpr
    ⟨_, congrArg (Except.map UnitReturn.masked) (toWidth_eq_ok value width), rfl⟩

/-- Settles O12: TO_WIDTH is one step that returns the masked value, and the mask is the word of R100. -/
theorem toWidthAndsTheMask : Obligations.ToWidthAndsTheMask := by
  intro value width s
  rw [exec_toWidth_eq_next, widthMask_eq_ite]

end Machine

end Sys2Proof

/-!
PROOFS. The ripple-carry adder as one step (42_ripple_carry_adder.md R120, R126): its carry chain, its result bit by
bit, and the widths at which it has a value.
-/

namespace Sys2Proof

namespace Machine

/-- ALU_ADD returns what the adder returns, and every other part of the state stands. -/
theorem exec_aluAdd_eq_next {left right : U64} {width : U8} {o : SumOutput}
    (h : aluAdd left right width = .ok o) (s : State) :
    exec (.aluAdd left right width) s = .next { s with ret := .sum o } :=
  (State.returns_eq_next_iff _ _ _).mpr ⟨_, congrArg (Except.map UnitReturn.sum) h, rfl⟩

/-- ALU_ADD stops with the fault of an adder evaluation that has no value. -/
theorem exec_aluAdd_eq_fault {left right : U64} {width : U8} {f : Fault}
    (h : aluAdd left right width = .error f) (s : State) :
    exec (.aluAdd left right width) s = .fault f :=
  (State.returns_eq_fault_iff _ _ _).mpr (congrArg (Except.map UnitReturn.sum) h)

/-- AS_SIGNED returns what the sign interpreter returns, and every other part of the state stands. -/
theorem exec_asSigned_eq_next {value pattern : U64} {width : U8}
    (h : asSigned value width = .ok pattern) (s : State) :
    exec (.asSigned value width) s = .next { s with ret := .signed pattern } :=
  (State.returns_eq_next_iff _ _ _).mpr ⟨_, congrArg (Except.map UnitReturn.signed) h, rfl⟩

/-- The adder has no value at width 0 or above 64 (R126). -/
theorem aluAdd_eq_error (left right : U64) {width : U8} (h : width.toNat = 0 ∨ 64 < width.toNat) :
    aluAdd left right width = .error .unitWidthOutOfDomain := by
  rw [aluAdd, if_pos ((outsideUnitDomain_iff width).mpr h)]

/-- The integer sum of a carry and two operand bits. -/
theorem bitSum_eq_toNat (c a b : Bool) : bitSum c a b = c.toNat + a.toNat + b.toNat := by
  have hbit (x : Bool) : bitNat x = x.toNat := by cases x <;> rfl
  rw [bitSum, hbit, hbit, hbit]

/-- The rule of R120 for the next carry, from carry 0, has one solution: the carries of the binary addition. -/
theorem eq_carry_of_carryRule {left right : U64} {n : Nat} {c : Nat → Bool} (hzero : c 0 = false)
    (hsucc : ∀ i, i < n → c (i + 1) = decide (2 ≤ bitSum (c i) (bitAt left i) (bitAt right i)))
    {i : Nat} (hi : i ≤ n) : c i = BitVec.carry i left right false := by
  induction i with
  | zero => simpa using hzero
  | succ i ih => rw [hsucc i (by omega), two_le_bitSum, ih (by omega), BitVec.carry_succ]

/-- Below the width, a bit of the loop's result is the sum mod 2 of the operand bits and the carry into them. -/
theorem adderLoop_getLsbD_of_lt (left right : U64) {n i : Nat} (hn : n ≤ 64) (hi : i < n) :
    (adderLoop left right n).result.getLsbD i =
      decide (bitSum (BitVec.carry i left right false) (bitAt left i) (bitAt right i) % 2 = 1) := by
  rw [adderLoop_getLsbD _ _ _ hn, bitSum_odd, BitVec.getLsbD_add (by omega)]
  simp [hi]

/-- At and above the width, the bits of the loop's result are 0. -/
theorem adderLoop_getLsbD_of_le (left right : U64) {n i : Nat} (hn : n ≤ 64) (hi : n ≤ i) :
    (adderLoop left right n).result.getLsbD i = false := by
  simp [adderLoop_getLsbD _ _ _ hn, hi]

/-- Settles O18: the given carries are those of the addition, so the loop's result and the flags are what the rules
say of them; the result fits its width, so AS_SIGNED gives its sign extension. -/
theorem aluAddFollowsTheBitSerialAlgorithm : Obligations.AluAddFollowsTheBitSerialAlgorithm := by
  intro left right width s c h1 h64 hzero hsucc
  simp only [← bitSum_eq_toNat] at hsucc ⊢
  have hcarry : ∀ i ≤ width.toNat, c i = BitVec.carry i left right false :=
    fun i hi => eq_carry_of_carryRule hzero hsucc hi
  have hhigh : ∀ i, width.toNat ≤ i → (adderLoop left right width.toNat).result.getLsbD i = false :=
    fun i hi => adderLoop_getLsbD_of_le left right h64 hi
  refine ⟨_, _, ?step, ?low, hhigh, exec_asSigned_eq_next (asSigned_of_fits _ width h1 h64 hhigh) s⟩
  case step =>
    rw [hcarry _ le_rfl, hcarry _ (Nat.sub_le _ _)]
    exact exec_aluAdd_eq_next (aluAdd_eq_ok left right width h1 h64) s
  case low =>
    intro i hi
    rw [adderLoop_getLsbD_of_lt left right h64 hi, hcarry i hi.le]

/-- CALC answers a next state for every request. -/
theorem exists_exec_calcOp_eq_next (left right : U64) (width : U8) (s : State) :
    ∃ t, exec (.calcOp left right width) s = .next t := by
  obtain ⟨_, -, -, ho⟩ | ⟨-, -, _, _, -, -, ho⟩ := calcPorts_cases ⟨left, right, width⟩
  · exact ⟨_, exec_calcOp_eq_next ho s⟩
  · exact ⟨_, exec_calcOp_eq_next ho s⟩

/-- Settles O26: the domain check stops the adder outside widths 1 to 64, CALC always answers, and width 4 is in the
domain. -/
theorem aluAddFaultsOutsideItsWidths : Obligations.AluAddFaultsOutsideItsWidths := by
  refine ⟨?outside, ?calcOp, ?widthFour⟩
  case outside =>
    intro left right width s h
    exact exec_aluAdd_eq_fault (aluAdd_eq_error left right h) s
  case calcOp =>
    intro left right width s hfault
    obtain ⟨t, ht⟩ := exists_exec_calcOp_eq_next left right width s
    rw [ht] at hfault
    cases hfault
  case widthFour =>
    intro left right s
    exact ⟨_, exec_aluAdd_eq_next (aluAdd_eq_ok left right 4#8 (by decide) (by decide)) s⟩

end Machine

end Sys2Proof

/-!
PROOFS. The flag derivation unit as one step (43_flag_derivation_unit.md R140): the four flags it returns, and the
widths at which it has no value.
-/

namespace Sys2Proof

namespace Machine

/-- DERIVE_FLAGS returns what the flag derivation returns, and every other part of the state stands. -/
theorem exec_deriveFlags_eq_next {result : U64} {carry previousCarry : Bool} {width : U8} {flags : Flags}
    (h : deriveFlags result carry previousCarry width = .ok flags) (s : State) :
    exec (.deriveFlags result carry previousCarry width) s = .next { s with ret := .flags flags } :=
  (State.returns_eq_next_iff _ _ _).mpr ⟨_, congrArg (Except.map UnitReturn.flags) h, rfl⟩

/-- DERIVE_FLAGS stops with the fault of a flag derivation that has no value. -/
theorem exec_deriveFlags_eq_fault {result : U64} {carry previousCarry : Bool} {width : U8} {f : Fault}
    (h : deriveFlags result carry previousCarry width = .error f) (s : State) :
    exec (.deriveFlags result carry previousCarry width) s = .fault f :=
  (State.returns_eq_fault_iff _ _ _).mpr (congrArg (Except.map UnitReturn.flags) h)

/-- The flag derivation has no value at width 0 or above 64 (R126, R140). -/
theorem deriveFlags_eq_error (result : U64) (carry previousCarry : Bool) {width : U8}
    (h : width.toNat = 0 ∨ 64 < width.toNat) :
    deriveFlags result carry previousCarry width = .error .unitWidthOutOfDomain := by
  rw [deriveFlags, if_pos ((outsideUnitDomain_iff width).mpr h)]

/-- Settles O24: inside the unit domain the derivation gives all four flags, whatever bits the result has, and outside
it the domain check stops the step. -/
theorem deriveFlagsGivesAllFourFlags : Obligations.DeriveFlagsGivesAllFourFlags := by
  intro result carry previousCarry width s
  refine ⟨?inside, ?outside⟩
  case inside =>
    intro h1 h64 _
    exact exec_deriveFlags_eq_next (deriveFlags_eq_ok result carry previousCarry width h1 h64) s
  case outside =>
    intro h
    exact exec_deriveFlags_eq_fault (deriveFlags_eq_error result carry previousCarry h) s

end Machine

end Sys2Proof

/-!
PROOFS. The sign interpreter as one step (44_sign_interpreter.md R160, R162): the bits a value occupies, the pattern for
a clear and for a set top bit, and the identity at width 64.
-/

namespace Sys2Proof

namespace Machine

/-- A nonzero value occupies the bits up to and including its highest set bit. -/
theorem significantBits_eq_log2_add_one {v : U64} (hv : v.toNat ≠ 0) :
    significantBits v = Nat.log2 v.toNat + 1 := by
  have hlt : Nat.log2 v.toNat < 64 := (Nat.log2_lt hv).mpr v.isLt
  refine significantBits_eq v _ (Nat.testBit_log2 hv) hlt fun j hj _ => ?_
  exact Nat.testBit_lt_two_pow ((Nat.log2_lt hv).mp hj)

/-- No value occupies more than 64 bits. -/
theorem significantBits_le (v : U64) : significantBits v ≤ 64 := Nat.sub_le _ _

/-- A value whose top bit is clear is returned as it is (R160). -/
theorem asSigned_of_topBit_clear {v : U64} {width : U8} (h1 : 1 ≤ width.toNat) (h64 : width.toNat ≤ 64)
    (htop : v.getLsbD (width.toNat - 1) = false) : asSigned v width = .ok v := by
  simp [asSigned, outsideUnitDomain_eq_false h1 h64, htop]

/-- A value whose top bit is set is filled from the first position above the bits it occupies (R160). -/
theorem asSigned_of_topBit_set {v : U64} {width : U8} (h1 : 1 ≤ width.toNat) (h64 : width.toNat ≤ 64)
    (htop : v.getLsbD (width.toNat - 1) = true) :
    asSigned v width = .ok (v ||| maskFrom (significantBits v)) := by
  simp [asSigned, outsideUnitDomain_eq_false h1 h64, htop]

/-- A value with a set bit is not 0. -/
theorem toNat_ne_zero_of_getLsbD {v : U64} {i : Nat} (h : v.getLsbD i = true) : v.toNat ≠ 0 := by
  intro hzero
  rw [BitVec.getLsbD, hzero, Nat.zero_testBit] at h
  cases h

/-- Filling a nonzero value above the bits it occupies sets each position past its highest set bit. -/
theorem getLsbD_or_maskFrom_significantBits {v : U64} (hv : v.toNat ≠ 0) {i : Nat} (hi : i < 64) :
    (v ||| maskFrom (significantBits v)).getLsbD i =
      (v.getLsbD i || decide (Nat.log2 v.toNat + 1 ≤ i)) := by
  rw [BitVec.getLsbD_or, maskFrom_getLsbD _ _ (significantBits_le v) hi, significantBits_eq_log2_add_one hv]

/-- Settles O27: the top bit decides between the value itself and the value filled from one past its highest set
bit. -/
theorem asSignedFillsAboveTheOccupiedBits : Obligations.AsSignedFillsAboveTheOccupiedBits := by
  intro value width s h1 h64
  cases htop : value.getLsbD (width.toNat - 1)
  case false =>
    exact ⟨value, exec_asSigned_eq_next (asSigned_of_topBit_clear h1 h64 htop) s, fun _ => rfl, nofun⟩
  case true =>
    refine ⟨_, exec_asSigned_eq_next (asSigned_of_topBit_set h1 h64 htop) s, nofun, fun _ i hi => ?_⟩
    exact getLsbD_or_maskFrom_significantBits (toNat_ne_zero_of_getLsbD htop) hi

/-- Every 64-bit value fits width 64, where sign extension leaves it as it is (R162). -/
theorem asSigned_width_64 (v : U64) : asSigned v 64#8 = .ok v := by
  rw [asSigned_of_fits v 64#8 (by decide) (by decide) fun j hj => BitVec.getLsbD_of_ge v j hj]
  exact congrArg Except.ok ((BitVec.signExtend_eq _).trans (BitVec.setWidth_eq v))

/-- Settles O29: at width 64 the sign interpreter is the identity, and AS_SIGNED returns what it gives. -/
theorem asSignedAtFullWidthIsTheIdentity : Obligations.AsSignedAtFullWidthIsTheIdentity :=
  fun value s => exec_asSigned_eq_next (asSigned_width_64 value) s

end Machine

end Sys2Proof

/-!
PROOFS. Request validation as one step and as CALC reports it (45_request_validation.md R180 to R185): one rule for each
outcome of the checks, the error report of a rejected request, and the requests that are accepted.
-/

namespace Sys2Proof

namespace Machine

/-- TRY_NEW returns what validation gives, and every other part of the state stands. -/
theorem exec_tryNew_eq_next (left right : U64) (width : U8) (s : State) :
    exec (.tryNew left right width) s =
      .next { s with ret := validationReturn (tryNew ⟨left, right, width⟩) } :=
  (State.returns_eq_next_iff _ _ _).mpr ⟨_, rfl, rfl⟩

@[simp] theorem validationReturn_ok (q : Request) : validationReturn (.ok q) = .accepted q := rfl
@[simp] theorem validationReturn_error (e : ValidationError) : validationReturn (.error e) = .rejected e := rfl

/-- The operand check compares with `2^width - 1`, the bound as the statements write it (R185). -/
theorem exceedsWidth_iff_bound_lt (value : U64) (width : U8) :
    exceedsWidth value width = true ↔ 2 ^ width.toNat - 1 < value.toNat :=
  decide_eq_true_iff

section
variable {left right : U64} {width : U8}

/-- The first check rejects a left operand above the bound (R181). -/
theorem tryNew_of_left_too_large (hl : 2 ^ width.toNat - 1 < left.toNat) :
    tryNew ⟨left, right, width⟩ = .error (.operandTooLarge .left left width) :=
  if_pos ((exceedsWidth_iff_bound_lt left width).mpr hl)

/-- The second check rejects a right operand above the bound, after the left one has passed (R182). -/
theorem tryNew_of_right_too_large (hl : ¬ 2 ^ width.toNat - 1 < left.toNat)
    (hr : 2 ^ width.toNat - 1 < right.toNat) :
    tryNew ⟨left, right, width⟩ = .error (.operandTooLarge .right right width) := by
  rw [← exceedsWidth_iff_bound_lt] at hl hr
  rw [tryNew, if_neg hl, if_pos hr]

/-- The third check rejects a width outside 8 to 64, after both operands have passed (R183). -/
theorem tryNew_of_unsupported_width (hl : ¬ 2 ^ width.toNat - 1 < left.toNat)
    (hr : ¬ 2 ^ width.toNat - 1 < right.toNat) (hw : width.toNat < 8 ∨ 64 < width.toNat) :
    tryNew ⟨left, right, width⟩ = .error (.unsupportedWidth width) := by
  rw [← exceedsWidth_iff_bound_lt] at hl hr
  rw [tryNew, if_neg hl, if_neg hr, if_pos ((unsupportedWidth_iff width).mpr hw)]

/-- A request is valid exactly when no check of its operands against `2^width - 1` or of its width fails (R183). -/
theorem requestValid_iff_le_bound :
    requestValid left right width = true ↔
      left.toNat ≤ 2 ^ width.toNat - 1 ∧ right.toNat ≤ 2 ^ width.toNat - 1 ∧
        8 ≤ width.toNat ∧ width.toNat ≤ 64 := by
  rw [requestValid_iff, Nat.le_sub_one_iff_lt (Nat.two_pow_pos _), Nat.le_sub_one_iff_lt (Nat.two_pow_pos _)]

/-- A request that passes the three checks is accepted as it is (R183). -/
theorem tryNew_of_checks_passed (hl : ¬ 2 ^ width.toNat - 1 < left.toNat)
    (hr : ¬ 2 ^ width.toNat - 1 < right.toNat) (hw : ¬ (64 < width.toNat ∨ width.toNat < 8)) :
    tryNew ⟨left, right, width⟩ = .ok ⟨left, right, width⟩ := by
  have hvalid : requestValid left right width = true := requestValid_iff_le_bound.mpr (by omega)
  exact (tryNew_eq_ok_iff _ _).mpr ⟨rfl, hvalid⟩

end

/-- From width 64 on the bound is at least `2^64 - 1`, and no operand exceeds it (R185). -/
theorem not_bound_lt_of_le (value : U64) {width : U8} (h : 64 ≤ width.toNat) :
    ¬ 2 ^ width.toNat - 1 < value.toNat :=
  Nat.not_lt.mpr (Nat.le_sub_one_of_lt (toNat_lt_two_pow_of_le value h))

/-- Settles O32: neither operand check can fail, so the width check alone decides, and it passes width 64 only. -/
theorem noOperandIsTooLargeAtFullWidth : Obligations.NoOperandIsTooLargeAtFullWidth := by
  intro left right width s h
  have hl := not_bound_lt_of_le left h
  have hr := not_bound_lt_of_le right h
  rw [exec_tryNew_eq_next]
  split_ifs with h64
  · rw [tryNew_of_checks_passed hl hr (by omega), validationReturn_ok]
  · rw [tryNew_of_unsupported_width hl hr (by omega), validationReturn_error]

/-- Settles O31: each branch of the ordered checks is the rule of that outcome. -/
theorem tryNewReportsTheFirstFailure : Obligations.TryNewReportsTheFirstFailure := by
  intro left right width s
  rw [exec_tryNew_eq_next]
  split_ifs with hl hr hw
  · rw [tryNew_of_left_too_large hl, validationReturn_error]
  · rw [tryNew_of_right_too_large hl hr, validationReturn_error]
  · rw [tryNew_of_unsupported_width hl hr hw.symm, validationReturn_error]
  · rw [tryNew_of_checks_passed hl hr hw, validationReturn_ok]

/-- CALC of a rejected request answers with the request on the input ports and its error report (R206). -/
theorem exec_calcOp_of_tryNew_error {left right : U64} {width : U8} {e : ValidationError}
    (h : tryNew ⟨left, right, width⟩ = .error e) (s : State) :
    exec (.calcOp left right width) s =
      .next { inp := ⟨left, right, width⟩, out := Ports.reportError e, ret := .idle } :=
  exec_calcOp_eq_next (calcPorts_of_tryNew_error h) s

/-- A value exceeds `n` bits exactly when one of its bits from `n` on is set (R181). -/
theorem bound_lt_toNat_iff_exists_getLsbD (value : U64) (n : Nat) :
    2 ^ n - 1 < value.toNat ↔ ∃ i, n ≤ i ∧ i < 64 ∧ value.getLsbD i = true := by
  constructor
  · intro h
    obtain ⟨i, hni, hi⟩ := Nat.exists_ge_and_testBit_of_ge_two_pow (Nat.le_of_pred_lt h)
    exact ⟨i, hni, BitVec.lt_of_getLsbD hi, hi⟩
  · rintro ⟨i, hni, -, hi⟩
    calc
      2 ^ n - 1 < 2 ^ n := Nat.sub_one_lt (Nat.two_pow_pos n).ne'
      _ ≤ 2 ^ i := Nat.pow_le_pow_right (by decide) hni
      _ ≤ value.toNat := Nat.ge_two_pow_of_testBit hi

/-- Settles O33: the first two checks' rules, each with its error report, and the bits that put an operand above the
bound. -/
theorem calcReportsOperandTooLarge : Obligations.CalcReportsOperandTooLarge := by
  intro left right width s
  refine ⟨?left, ?right, ?bits⟩
  case left =>
    intro hl
    exact ⟨_, exec_calcOp_of_tryNew_error (tryNew_of_left_too_large hl) s, rfl, rfl⟩
  case right =>
    intro hl hr
    exact ⟨_, exec_calcOp_of_tryNew_error (tryNew_of_right_too_large (Nat.not_lt.mpr hl) hr) s, rfl, rfl⟩
  case bits =>
    intro _
    exact bound_lt_toNat_iff_exists_getLsbD left width.toNat

/-- Validation's return is an accepted request exactly when validation gave it. -/
theorem validationReturn_eq_accepted_iff (r : Except ValidationError Request) (q : Request) :
    validationReturn r = .accepted q ↔ r = .ok q := by
  cases r <;> simp

/-- TRY_NEW accepts the request it was given exactly when that is valid (R183). -/
theorem exec_tryNew_eq_accepted_iff (left right : U64) (width : U8) (s : State) :
    exec (.tryNew left right width) s = .next { s with ret := .accepted ⟨left, right, width⟩ } ↔
      requestValid left right width = true := by
  rw [exec_tryNew_eq_next, Host.Outcome.next.injEq, State.mk.injEq, validationReturn_eq_accepted_iff,
    tryNew_eq_ok_iff]
  simp

/-- Settles O34: the third check's rule with its error report, and TRY_NEW accepts exactly the valid requests. -/
theorem calcReportsUnsupportedWidth : Obligations.CalcReportsUnsupportedWidth := by
  intro left right width s
  refine ⟨?report, ?accept⟩
  case report =>
    intro hl hr hw
    have h := tryNew_of_unsupported_width (Nat.not_lt.mpr hl) (Nat.not_lt.mpr hr) hw
    exact ⟨_, exec_calcOp_of_tryNew_error h s, rfl, rfl⟩
  case accept =>
    exact (exec_tryNew_eq_accepted_iff left right width s).trans requestValid_iff_le_bound

end Machine

end Sys2Proof

/-!
PROOFS. The negator as one step (46_negator_and_calc.md R200, R201), and the two channels of a valid request, as CALC
drives them and as ADD and SUB read them (R203, R204).
-/

namespace Sys2Proof

namespace Machine

/-- NEGATE returns the masked negation, and every other part of the state stands (R200). -/
theorem exec_negate_eq_next (right : U64) (width : U8) (s : State) :
    exec (.negate right width) s = .next { s with ret := .negated (negate64 right &&& widthMask width) } :=
  (State.returns_eq_next_iff _ _ _).mpr
    ⟨_, congrArg (Except.map UnitReturn.negated) (negate_eq_ok right width), rfl⟩

/-- The increment wraps modulo `2^64` (R201). -/
theorem negate64_eq_ofNat (right : U64) : negate64 right = BitVec.ofNat 64 ((~~~right).toNat + 1) := by
  rw [negate64, BitVec.ofNat_add, BitVec.ofNat_toNat, BitVec.setWidth_eq]

/-- The complement of 0 is all ones, and its increment wraps to 0 (R201). -/
@[simp] theorem negate64_zero : negate64 0#64 = 0#64 := by decide

/-- Settles O16: NEGATE and TO_WIDTH mask one and the same value, and the negation of 0 has no bit to mask. -/
theorem negateMasksTheWrappingComplement : Obligations.NegateMasksTheWrappingComplement := by
  refine ⟨?masks, ?zero⟩
  case masks =>
    intro right width s
    refine ⟨_, exec_negate_eq_next right width s, ?_⟩
    rw [exec_toWidth_eq_next, negate64_eq_ofNat]
  case zero =>
    intro width s
    rw [exec_negate_eq_next, negate64_zero, BitVec.zero_and]

/-- The SUB channel's right operand is the masked negation (R204). -/
theorem subChannel_eq_aluAdd (q : Request) :
    subChannel q = aluAdd q.left (negate64 q.right &&& widthMask q.width) q.width := by
  rw [subChannel, negate_eq_ok]
  rfl

/-- A valid request drives status 00 and two adder outputs: on its operands, and on `left` and the masked negation of
`right` (R203, R204, R206). -/
theorem calcPorts_of_requestValid {left right : U64} {width : U8} (h : requestValid left right width = true) :
    ∃ a b, aluAdd left right width = .ok a ∧
      aluAdd left (negate64 right &&& widthMask width) width = .ok b ∧
      calcPorts ⟨left, right, width⟩ = .ok ((Ports.okStatus.driveAdd a).driveSub b) := by
  obtain ⟨_, -, hinvalid, -⟩ | ⟨-, -, a, b, ha, hb, hports⟩ := calcPorts_cases ⟨left, right, width⟩
  · rw [h] at hinvalid
    cases hinvalid
  · rw [subChannel_eq_aluAdd] at hb
    exact ⟨a, b, ha, hb, hports⟩

section
variable {left right : U64} {width : U8} {a b : SumOutput}

/-- ADD of a request whose channels are driven is its CALC and a read of the ADD channel (R79). -/
theorem exec_add_eq_next
    (h : calcPorts ⟨left, right, width⟩ = .ok ((Ports.okStatus.driveAdd a).driveSub b)) (s : State) :
    exec (.add left right width) s =
      .next { inp := ⟨left, right, width⟩, out := (Ports.okStatus.driveAdd a).driveSub b, ret := .channel a } :=
  (State.evaluate_eq_next_iff _ _ _ _).mpr ⟨_, _, h, readChannelIfOk_ok a b a, rfl⟩

/-- SUB of a request whose channels are driven is its CALC and a read of the SUB channel (R79). -/
theorem exec_sub_eq_next
    (h : calcPorts ⟨left, right, width⟩ = .ok ((Ports.okStatus.driveAdd a).driveSub b)) (s : State) :
    exec (.sub left right width) s =
      .next { inp := ⟨left, right, width⟩, out := (Ports.okStatus.driveAdd a).driveSub b, ret := .channel b } :=
  (State.evaluate_eq_next_iff _ _ _ _).mpr ⟨_, _, h, readChannelIfOk_ok a b b, rfl⟩

end

/-- Settles O36: the ADD channel carries the adder's output on the request's own operands, and ADD reads it back. -/
theorem addChannelIsTheAdderOnTheOperands : Obligations.AddChannelIsTheAdderOnTheOperands := by
  intro left right width s hvalid
  obtain ⟨a, b, ha, -, hports⟩ := calcPorts_of_requestValid hvalid
  exact ⟨a, _, exec_aluAdd_eq_next ha s, exec_calcOp_eq_next hports s, rfl, exec_add_eq_next hports s⟩

/-- Settles O37: the SUB channel carries the adder's output on `left` and what NEGATE returns, and SUB reads it back. -/
theorem subChannelIsTheAdderOnTheNegatedOperand : Obligations.SubChannelIsTheAdderOnTheNegatedOperand := by
  intro left right width s hvalid
  obtain ⟨a, b, -, hb, hports⟩ := calcPorts_of_requestValid hvalid
  exact ⟨_, b, _, exec_negate_eq_next right width s, exec_aluAdd_eq_next hb s, exec_calcOp_eq_next hports s, rfl,
    exec_sub_eq_next hports s⟩

end Machine

end Sys2Proof

/-!
PROOFS. Successive requests (10_state.md R31, 70_reset_and_hazards.md R264): a step reads the request on the input ports
and nothing else, and leaves that request standing.
-/

namespace Sys2Proof

namespace Machine

/-- A step is the CALC of the request on the input ports (R75). -/
theorem step_eq_exec_calcOp (s : State) : step s = exec (.calcOp s.inp.left s.inp.right s.inp.width) s :=
  congrArg (exec · s) (decodeWord_reqWord s.inp.left s.inp.right s.inp.width)

/-- CALC reads nothing of the state before it (R31). -/
theorem exec_calcOp_congr_state (left right : U64) (width : U8) (s t : State) :
    exec (.calcOp left right width) s = exec (.calcOp left right width) t := by
  obtain ⟨u, hu⟩ := exists_exec_calcOp_eq_next left right width t
  obtain ⟨o, -, hports, -, -⟩ := (State.evaluate_eq_next_iff _ _ _ _).mp hu
  rw [exec_calcOp_eq_next hports, exec_calcOp_eq_next hports]

/-- States with one request on the input ports have one step (R31). -/
theorem step_eq_of_inp_eq {s t : State} (h : s.inp = t.inp) : step s = step t := by
  rw [step_eq_exec_calcOp, step_eq_exec_calcOp, h]
  exact exec_calcOp_congr_state _ _ _ s t

/-- A step leaves the request on the input ports standing (R206). -/
theorem inp_eq_of_step_eq_next {s t : State} (h : step s = .next t) : t.inp = s.inp := by
  rw [step_eq_exec_calcOp] at h
  obtain ⟨o, r, -, -, rfl⟩ := (State.evaluate_eq_next_iff _ _ _ _).mp h
  rfl

/-- Settles O11: the request still stands after its step, so the step repeats; and a request presented before or after
it is all that the next step reads. -/
theorem requestsAreIndependentAndIdempotent : Obligations.RequestsAreIndependentAndIdempotent := by
  intro s t hstep
  refine ⟨?idempotent, ?independent⟩
  case idempotent =>
    calc step t = step s := step_eq_of_inp_eq (inp_eq_of_step_eq_next hstep)
      _ = .next t := hstep
  case independent =>
    intro q
    exact step_eq_of_inp_eq ((State.present_inp t q).trans (State.present_inp s q).symm)

end Machine

end Sys2Proof

/-!
PROOFS. The request word and its 17 bytes (30_encoding.md R71, R72, R75): the decoder and the encoder as inverses, and
the word of the request that a step evaluates.
-/

namespace Sys2Proof

/-- The three fields of a word make up the word (R71). -/
theorem reqWord_fields (word : ReqWord) : reqWord (reqLeft word) (reqRight word) (reqWidth word) = word := by
  apply BitVec.eq_of_toNat_eq
  have := word.isLt
  simp only [reqWord_toNat, reqLeft, reqRight, reqWidth, BitVec.extractLsb'_toNat, Nat.shiftRight_eq_div_pow]
  omega

/-- The bytes of a request, read as one number low byte first, are its word (R71, R72). -/
theorem leValue_reqSerialise (left right : U64) (width : U8) :
    leValue (reqSerialise left right width) = (reqWord left right width).toNat := by
  have := left.isLt
  have := right.isLt
  simp only [reqSerialise, leValue_append, leValue_leBytes, leValue, List.length_append, leBytes_length, reqWord_toNat]
  omega

/-- The bytes of a request are the 17 low bytes of its word, low byte first. -/
theorem reqSerialise_eq_leBytes (left right : U64) (width : U8) :
    reqSerialise left right width = leBytes 17 (reqWord left right width).toNat := by
  have h := leBytes_leValue (reqSerialise left right width)
  rw [leValue_reqSerialise, reqSerialise_length] at h
  exact h.symm

/-- Every string of 17 bytes decodes to the CALC of its word (R75). -/
theorem decode_of_length_eq {bytes : List Byte} (h : bytes.length = 17) :
    decode bytes = .ok (decodeWord (BitVec.ofNat 136 (leValue bytes))) := by
  simp [decode, reqBytes, h]

/-- A string of fewer than 17 bytes is too short. -/
theorem decode_of_length_lt {bytes : List Byte} (h : bytes.length < 17) :
    decode bytes = .error (.tooShort bytes.length) :=
  if_pos h

/-- A string of more than 17 bytes is too long. -/
theorem decode_of_lt_length {bytes : List Byte} (h : 17 < bytes.length) :
    decode bytes = .error (.tooLong bytes.length) :=
  (if_neg (Nat.lt_asymm h)).trans (if_pos h)

/-- Only a string of 17 bytes decodes, and it decodes to the CALC of its word. -/
theorem decode_eq_ok_iff (bytes : List Byte) (i : Instr) :
    decode bytes = .ok i ↔ bytes.length = 17 ∧ i = decodeWord (BitVec.ofNat 136 (leValue bytes)) := by
  rcases Nat.lt_trichotomy bytes.length 17 with h | h | h
  · simp [decode_of_length_lt h, h.ne]
  · simp [decode_of_length_eq h, h, eq_comm]
  · simp [decode_of_lt_length h, h.ne']

/-- The 17 low bytes of a number decode to the CALC of its low 136 bits. -/
theorem decode_leBytes (v : Nat) : decode (leBytes 17 v) = .ok (decodeWord (BitVec.ofNat 136 v)) := by
  have h : BitVec.ofNat 136 (v % 256 ^ 17) = BitVec.ofNat 136 v := by
    apply BitVec.eq_of_toNat_eq
    simp only [BitVec.toNat_ofNat]
    omega
  rw [decode_of_length_eq (leBytes_length 17 v), leValue_leBytes, h]

/-- The bytes of a request decode to its CALC. -/
theorem decode_reqSerialise (left right : U64) (width : U8) :
    decode (reqSerialise left right width) = .ok (.calcOp left right width) := by
  rw [reqSerialise_eq_leBytes, decode_leBytes, BitVec.ofNat_toNat, BitVec.setWidth_eq, decodeWord_reqWord]

/-- Encoding the operation of a word gives the word's bytes. -/
theorem encode_decodeWord (word : ReqWord) : encode (decodeWord word) = some (leBytes 17 word.toNat) := by
  rw [decodeWord, encode, reqSerialise_eq_leBytes, reqWord_fields]

/-- Exactly CALC, ADD and SUB have an encoding (R75, R78, R79). -/
theorem hasEncoding_iff (i : Instr) :
    i.hasEncoding = true ↔ ∃ left right width,
      i = .calcOp left right width ∨ i = .add left right width ∨ i = .sub left right width := by
  cases i <;> simp [Instr.hasEncoding]

/-- An operation has bytes exactly when it has an encoding. -/
theorem encode_isSome (i : Instr) : (encode i).isSome = i.hasEncoding := by
  cases i <;> rfl

/-- The bytes of CALC, ADD and SUB are those of their request, and what is performed for them is its CALC. -/
theorem encode_and_canon_of_form {i : Instr} {left right : U64} {width : U8}
    (h : i = .calcOp left right width ∨ i = .add left right width ∨ i = .sub left right width) :
    encode i = some (reqSerialise left right width) ∧ i.canon = .calcOp left right width := by
  obtain rfl | rfl | rfl := h <;> exact ⟨rfl, rfl⟩

/-- Settles O3: the bytes of CALC, ADD and SUB are those of one request, which decode to its CALC. -/
theorem decodeOfEncodeGivesTheCalcBack : Obligations.DecodeOfEncodeGivesTheCalcBack := by
  intro i
  have hiff := hasEncoding_iff i
  rw [← encode_isSome] at hiff
  refine ⟨?decodes, hiff, fun _ _ _ hform => (encode_and_canon_of_form hform).2⟩
  case decodes =>
    intro bytes hbytes
    obtain ⟨left, right, width, hform⟩ := hiff.mp (Option.isSome_of_mem hbytes)
    obtain ⟨hencode, hcanon⟩ := encode_and_canon_of_form hform
    obtain rfl : reqSerialise left right width = bytes := Option.some.inj (hencode.symm.trans hbytes)
    rw [hcanon, decode_reqSerialise]

/-- Settles O2: the listed bytes are the word's, and each field is a run of the word's bits. -/
theorem everyWordDecodesToTheCalcOfItsFields : Obligations.EveryWordDecodesToTheCalcOfItsFields := by
  intro word
  refine ⟨reqLeft word, reqRight word, reqWidth word, ?decodes, ?left, ?right, ?width⟩
  case decodes =>
    rw [← leBytes_toNat, decode_leBytes, BitVec.ofNat_toNat, BitVec.setWidth_eq, decodeWord]
  case left => intro i hi; simp [reqLeft, hi]
  case right => intro i hi; simp [reqRight, hi]
  case width => intro i hi; simp [reqWidth, hi]

/-- Settles O4: a string that decodes is the 17 bytes of the number it spells, and the encoder spells that number. -/
theorem encodeOfDecodeGivesTheBytesBack : Obligations.EncodeOfDecodeGivesTheBytesBack := by
  intro bytes i h
  obtain ⟨hlength, rfl⟩ := (decode_eq_ok_iff bytes i).mp h
  have hlt : leValue bytes < 2 ^ 136 := by
    have := leValue_lt bytes
    rw [hlength] at this
    omega
  have hbytes := leBytes_leValue bytes
  rw [hlength] at hbytes
  rw [encode_decodeWord, BitVec.toNat_ofNat, Nat.mod_eq_of_lt hlt, hbytes]

/-- Settles O5: the three lengths' rules, and a decoded word is a CALC. -/
theorem decoderTakesOneLengthOnly : Obligations.DecoderTakesOneLengthOnly :=
  fun _ => ⟨decode_of_length_lt, decode_of_lt_length, fun h => ⟨_, _, _, decode_of_length_eq h⟩⟩

/-- A table word of at most 136 bits is read as the request word of its bits. -/
theorem decodeTableWord_eq {nbits : Nat} (h : nbits ≤ 136) (w : Nat) :
    decodeTableWord nbits w = some (decodeWord (Machine.tableWord nbits w)) := by
  have hmax : max reqBytes ((nbits + 7) / 8) = 17 := by
    rw [reqBytes]
    omega
  rw [decodeTableWord, tableBytes, hmax, decode_leBytes, Machine.tableWord]

/-- Settles O6: each spelled word is that of its request. -/
theorem writtenOutWordsDecode : Obligations.WrittenOutWordsDecode := by
  refine ⟨?_, ?_, ?_, ?_⟩ <;> decide

namespace Machine

/-- Settles O7: the bytes on the input ports are those of one request, and the step is the operation of its word. -/
theorem stepRunsTheRequestOnTheInputPorts : Obligations.StepRunsTheRequestOnTheInputPorts := by
  intro s
  have hdecode : decode (presentedBytes s.inp) = .ok (.calcOp s.inp.left s.inp.right s.inp.width) :=
    decode_reqSerialise _ _ _
  refine ⟨fun i hi => ?_, hdecode⟩
  obtain rfl : .calcOp s.inp.left s.inp.right s.inp.width = i := Except.ok.inj (hdecode.symm.trans hi)
  exact step_eq_exec_calcOp s

/-- The word of the request of a word is that word. -/
theorem presentedWord_requestOfWord (word : ReqWord) : presentedWord (requestOfWord word) = word :=
  reqWord_fields word

/-- Settles O8: placing a table word puts its request on the input ports, and the word there is the one decoded. -/
theorem placedWordIsEvaluatedNext : Obligations.PlacedWordIsEvaluatedNext := by
  intro s nbits w i hnbits hi
  obtain rfl : decodeWord (tableWord nbits w) = i := Option.some.inj ((decodeTableWord_eq hnbits w).symm.trans hi)
  refine ⟨?_, rfl, rfl⟩
  rw [step, State.withFetchWord, State.present_inp, presentedWord_requestOfWord]

end Machine

end Sys2Proof

/-!
PROOFS. The outputs of one evaluation (10_state.md R34, 46_negator_and_calc.md R206): which ports a status drives, and
that CALC, ADD and SUB answer with the same outputs at every request (R79).
-/

namespace Sys2Proof

namespace Machine

/-- An error report drives its status and the ports that the table gives it (R231, R232). -/
theorem Ports.reportError_keepsTable (e : ValidationError) : (Ports.reportError e).KeepsTable := by
  cases e with
  | operandTooLarge => exact ⟨statusOperandTooLarge, rfl, by decide, fun p => by cases p <;> rfl⟩
  | unsupportedWidth => exact ⟨statusUnsupportedWidth, rfl, by decide, fun p => by cases p <;> rfl⟩

/-- Status 00 with both channels driven is what the table gives it (R206). -/
theorem Ports.driveAdd_driveSub_keepsTable (a b : SumOutput) :
    ((Ports.okStatus.driveAdd a).driveSub b).KeepsTable :=
  ⟨statusOk, rfl, by decide, fun p => by cases p <;> rfl⟩

/-- The outputs of one evaluation keep the port table. -/
theorem keepsTable_of_calcPorts_eq_ok {q : Request} {o : Ports} (h : calcPorts q = .ok o) : o.KeepsTable := by
  obtain ⟨e, -, -, he⟩ | ⟨-, -, a, b, -, -, hab⟩ := calcPorts_cases q
  · obtain rfl : Ports.reportError e = o := Except.ok.inj (he.symm.trans h)
    exact Ports.reportError_keepsTable e
  · obtain rfl : (Ports.okStatus.driveAdd a).driveSub b = o := Except.ok.inj (hab.symm.trans h)
    exact Ports.driveAdd_driveSub_keepsTable a b

/-- Reading a port that has a value gives one. -/
theorem Ports.exists_read_eq_ok {o : Ports} {p : Port} (h : (o.value p).isSome = true) :
    ∃ v, o.read p = .ok v := by
  obtain ⟨v, hv⟩ := Option.isSome_iff_exists.mp h
  exact ⟨v, (Ports.read_eq_ok_iff o p v).mpr hv⟩

/-- Reading a port that has no value is the fault UndrivenPortRead (R34). -/
theorem Ports.read_eq_error {o : Ports} {p : Port} (h : o.value p = none) : o.read p = .error .undrivenPortRead :=
  (Ports.read_eq_error_iff o p _).mpr ⟨h, rfl⟩

section
variable {left right : U64} {width : U8} {e : ValidationError}

/-- ADD of a rejected request answers as its CALC does, and reads no channel (log 5). -/
theorem exec_add_of_tryNew_error (h : tryNew ⟨left, right, width⟩ = .error e) (s : State) :
    exec (.add left right width) s =
      .next { inp := ⟨left, right, width⟩, out := Ports.reportError e, ret := .idle } :=
  (State.evaluate_eq_next_iff _ _ _ _).mpr
    ⟨_, _, calcPorts_of_tryNew_error h, readChannelIfOk_reportError e _, rfl⟩

/-- SUB of a rejected request answers as its CALC does, and reads no channel (log 5). -/
theorem exec_sub_of_tryNew_error (h : tryNew ⟨left, right, width⟩ = .error e) (s : State) :
    exec (.sub left right width) s =
      .next { inp := ⟨left, right, width⟩, out := Ports.reportError e, ret := .idle } :=
  (State.evaluate_eq_next_iff _ _ _ _).mpr
    ⟨_, _, calcPorts_of_tryNew_error h, readChannelIfOk_reportError e _, rfl⟩

end

/-- Settles O48: a rejected request's error report and a valid one's channels are driven by all three forms alike. -/
theorem channelFormsDriveThePortsOfTheirCalc : Obligations.ChannelFormsDriveThePortsOfTheirCalc := by
  intro left right width s s'
  obtain ⟨e, he, -, hports⟩ | ⟨-, -, a, b, -, -, hports⟩ := calcPorts_cases ⟨left, right, width⟩
  · exact ⟨_, _, _, exec_calcOp_eq_next hports s, exec_add_of_tryNew_error he s', exec_sub_of_tryNew_error he s'⟩
  · exact ⟨_, _, _, exec_calcOp_eq_next hports s, exec_add_eq_next hports s', exec_sub_eq_next hports s'⟩

/-- CALC, ADD and SUB answer a next state with the outputs of one evaluation of their request. -/
theorem exists_exec_eq_next_of_form {i : Instr} {left right : U64} {width : U8}
    (h : i = .calcOp left right width ∨ i = .add left right width ∨ i = .sub left right width) (s : State) :
    ∃ t, exec i s = .next t ∧ t.out.KeepsTable := by
  obtain ⟨o, a, b, hcalc, hadd, hsub⟩ := channelFormsDriveThePortsOfTheirCalc left right width s s
  obtain ⟨_, _, hports, -, ht⟩ := (State.evaluate_eq_next_iff _ _ _ _).mp hcalc
  obtain rfl := congrArg State.out ht
  have htable := keepsTable_of_calcPorts_eq_ok hports
  obtain rfl | rfl | rfl := h
  · exact ⟨_, hcalc, htable⟩
  · exact ⟨_, hadd, htable⟩
  · exact ⟨_, hsub, htable⟩

/-- Settles O9: the three forms answer a next state, and a step is one of them. -/
theorem evaluationNeverStops : Obligations.EvaluationNeverStops := by
  refine ⟨?forms, ?step⟩
  case forms =>
    intro left right width s
    obtain ⟨_, _, _, hcalc, hadd, hsub⟩ := channelFormsDriveThePortsOfTheirCalc left right width s s
    exact ⟨⟨_, hcalc⟩, ⟨_, hadd⟩, ⟨_, hsub⟩⟩
  case step =>
    intro s
    rw [StepIsSafe, step_eq_exec_calcOp]
    exact exists_exec_calcOp_eq_next _ _ _ s

/-- Settles O10: a step reads the request on the input ports and nothing else. -/
theorem stepDependsOnTheRequestAlone : Obligations.StepDependsOnTheRequestAlone :=
  fun _ _ h => step_eq_of_inp_eq h

/-- An error report drives a status other than 00. -/
theorem Ports.reportError_status_ne_ok (e : ValidationError) : (Ports.reportError e).status ≠ some statusOk := by
  obtain h | h := Ports.reportError_status e <;> rw [h] <;> decide

/-- Settles O38: a request that is not valid is rejected, and all three forms answer with its error report. -/
theorem channelFormsOfAnInvalidRequestReportItsError :
    Obligations.ChannelFormsOfAnInvalidRequestReportItsError := by
  intro left right width s hinvalid
  obtain ⟨e, he, -, -⟩ | ⟨hvalid, -⟩ := calcPorts_cases ⟨left, right, width⟩
  · exact ⟨_, exec_calcOp_of_tryNew_error he s, Ports.reportError_status_ne_ok e, exec_add_of_tryNew_error he s,
      exec_sub_of_tryNew_error he s⟩
  · rw [hinvalid] at hvalid
    cases hvalid

/-- Settles O45: the outputs keep the port table, so a port reads as a value exactly when its status drives it. -/
theorem portsAreDrivenAsTheStatusSays : Obligations.PortsAreDrivenAsTheStatusSays := by
  intro i left right width s hform
  obtain ⟨t, ht, status, hstatus, hreserved, hdriven⟩ := exists_exec_eq_next_of_form hform s
  refine ⟨t, status, ht, hstatus, hreserved, fun p => ⟨fun hp => ?driven, fun hp => ?undriven⟩⟩
  case driven => exact Ports.exists_read_eq_ok ((hdriven p).trans hp)
  case undriven => exact Ports.read_eq_error (Option.not_isSome_iff_eq_none.mp (by simp [hdriven, hp]))

/-- Settles O46: at reset and from presenting a request on, no output port has a value to read. -/
theorem noOutputHasAValueBeforeItSettles : Obligations.NoOutputHasAValueBeforeItSettles := by
  intro p
  have hread : Ports.undriven.read p = .error .undrivenPortRead := Ports.read_eq_error (Ports.undriven_value p)
  exact ⟨hread, fun _ _ => ⟨hread, rfl⟩⟩

end Machine

end Sys2Proof

/-!
PROOFS. What an operation can change (30_encoding.md R75, R78, R79), one rule for the operations that have an encoding
and one for the unit calls, and the port invariant that every operation keeps (10_state.md R34, R260).
-/

namespace Sys2Proof

namespace Machine

/-- What a consumer of a channel is left with: nothing, or what it read (R79, log 5). -/
theorem readChannelIfOk_eq_ok_cases {o : Ports} {c : ChannelPorts} {r : UnitReturn}
    (h : readChannelIfOk o c = .ok r) : r = .idle ∨ ∃ a, r = .channel a := by
  unfold readChannelIfOk at h
  split at h
  · cases h
  · cases hread : c.read with
    | error f => rw [hread] at h; cases h
    | ok a => rw [hread] at h; exact .inr ⟨a, (Except.ok.inj h).symm⟩
  · exact .inl (Except.ok.inj h).symm
  · exact .inl (Except.ok.inj h).symm

/-- CALC, ADD and SUB answer with the outputs of the request on the input ports, and what they return is nothing or a
channel. -/
theorem exec_eq_next_cases_of_hasEncoding {i : Instr} {s t : State} (hi : i.hasEncoding = true)
    (h : exec i s = .next t) : calcPorts t.inp = .ok t.out ∧ (t.ret = .idle ∨ ∃ a, t.ret = .channel a) := by
  obtain ⟨left, right, width, rfl | rfl | rfl⟩ := (hasEncoding_iff i).mp hi
  · obtain ⟨o, r, hports, hr, rfl⟩ := (State.evaluate_eq_next_iff _ _ _ _).mp h
    exact ⟨hports, .inl (Except.ok.inj hr).symm⟩
  · obtain ⟨o, r, hports, hr, rfl⟩ := (State.evaluate_eq_next_iff _ _ _ _).mp h
    exact ⟨hports, readChannelIfOk_eq_ok_cases hr⟩
  · obtain ⟨o, r, hports, hr, rfl⟩ := (State.evaluate_eq_next_iff _ _ _ _).mp h
    exact ⟨hports, readChannelIfOk_eq_ok_cases hr⟩

/-- What a unit call may leave in the record: a return, and as an accepted request only a valid one (R78, R183). -/
def UnitReturn.OfUnitCall (r : UnitReturn) : Prop :=
  r ≠ .idle ∧ ∀ q : Request, r = .accepted q → requestValid q.left q.right q.width = true

/-- What validation returns to its caller is such a return. -/
theorem validationReturn_ofUnitCall (q : Request) : (validationReturn (tryNew q)).OfUnitCall := by
  refine ⟨by cases tryNew q <;> nofun, fun v hv => ?_⟩
  obtain ⟨rfl, hvalid⟩ := (tryNew_eq_ok_iff q v).mp ((validationReturn_eq_accepted_iff _ _).mp hv)
  exact hvalid

/-- A unit call whose return is of that kind for every value of its evaluation changes the record alone. -/
theorem State.returns_map_eq_next {α : Type} {s t : State} {e : Except Fault α} {f : α → UnitReturn}
    (h : s.returns (e.map f) = .next t) (hf : ∀ v, (f v).OfUnitCall) :
    ∃ r : UnitReturn, r.OfUnitCall ∧ t = { s with ret := r } := by
  obtain ⟨r, hr, rfl⟩ := (State.returns_eq_next_iff _ _ _).mp h
  cases e with
  | error => cases hr
  | ok v => exact ⟨f v, hf v, by rw [← Except.ok.inj hr]⟩

/-- An operation without an encoding changes the record of what was returned and nothing else (R78). -/
theorem exec_eq_next_cases_of_not_hasEncoding {i : Instr} {s t : State} (hi : i.hasEncoding = false)
    (h : exec i s = .next t) : ∃ r : UnitReturn, r.OfUnitCall ∧ t = { s with ret := r } := by
  cases i with
  | calcOp => cases hi
  | add => cases hi
  | sub => cases hi
  | tryNew left right width =>
    rw [exec_tryNew_eq_next] at h
    exact ⟨_, validationReturn_ofUnitCall _, (Host.Outcome.next.inj h).symm⟩
  | toWidth => exact State.returns_map_eq_next h fun _ => ⟨nofun, nofun⟩
  | negate => exact State.returns_map_eq_next h fun _ => ⟨nofun, nofun⟩
  | aluAdd => exact State.returns_map_eq_next h fun _ => ⟨nofun, nofun⟩
  | deriveFlags => exact State.returns_map_eq_next h fun _ => ⟨nofun, nofun⟩
  | asSigned => exact State.returns_map_eq_next h fun _ => ⟨nofun, nofun⟩

/-- Settles O47: a unit call changes the record alone, and leaves a return there. -/
theorem unitCallsChangeNoPort : Obligations.UnitCallsChangeNoPort := by
  intro s t i hi h
  obtain ⟨r, ⟨hidle, -⟩, rfl⟩ := exec_eq_next_cases_of_not_hasEncoding hi h
  exact ⟨rfl, rfl, hidle⟩

/-- Settles O49: the outputs of an evaluation keep the port table, which has no reserved status, and a unit call
leaves the status as it was. -/
theorem reservedStatusIsNeverDriven : Obligations.ReservedStatusIsNeverDriven := by
  intro i s t h hs
  cases hi : i.hasEncoding with
  | false =>
    obtain ⟨r, -, rfl⟩ := exec_eq_next_cases_of_not_hasEncoding hi h
    exact hs
  | true =>
    obtain ⟨hports, -⟩ := exec_eq_next_cases_of_hasEncoding hi h
    obtain ⟨status, hstatus, hreserved, -⟩ := keepsTable_of_calcPorts_eq_ok hports
    rw [hstatus]
    exact fun heq => hreserved (Option.some.inj heq)

/-- Settles O50: at reset no output has a value and nothing has been accepted. -/
theorem resetMeetsThePortInvariant : Obligations.ResetMeetsThePortInvariant :=
  ⟨.inl rfl, .inl rfl, nofun⟩

/-- After CALC, ADD or SUB the invariant holds, whatever the state before. -/
theorem inv_of_exec_of_hasEncoding {i : Instr} {s t : State} (hi : i.hasEncoding = true) (h : exec i s = .next t) :
    t.Inv := by
  obtain ⟨hports, hret⟩ := exec_eq_next_cases_of_hasEncoding hi h
  refine ⟨.inr (keepsTable_of_calcPorts_eq_ok hports), .inr hports, fun q hq => ?_⟩
  obtain hidle | ⟨a, hchannel⟩ := hret
  · rw [hidle] at hq; cases hq
  · rw [hchannel] at hq; cases hq

/-- A unit call keeps the invariant. -/
theorem inv_of_exec_of_not_hasEncoding {i : Instr} {s t : State} (hi : i.hasEncoding = false) (hs : s.Inv)
    (h : exec i s = .next t) : t.Inv := by
  obtain ⟨r, ⟨-, haccepted⟩, rfl⟩ := exec_eq_next_cases_of_not_hasEncoding hi h
  exact ⟨hs.table, hs.follows, haccepted⟩

/-- Presenting a request takes the outputs' values away and keeps the invariant. -/
theorem State.Inv.present {s : State} (hs : s.Inv) (q : Request) : (s.present q).Inv :=
  ⟨.inl rfl, .inl rfl, hs.accepted⟩

/-- Settles O51: an evaluation establishes the invariant, and a unit call and presenting a request keep it. -/
theorem everyOperationKeepsThePortInvariant : Obligations.EveryOperationKeepsThePortInvariant := by
  refine ⟨fun i s t hs h => ?_, fun s q hs => hs.present q⟩
  cases hi : i.hasEncoding with
  | false => exact inv_of_exec_of_not_hasEncoding hi hs h
  | true => exact inv_of_exec_of_hasEncoding hi h

/-- Settles O52: a step is an evaluation of the request on the input ports, which it leaves standing. -/
theorem everyStepKeepsThePortInvariant : Obligations.EveryStepKeepsThePortInvariant := by
  intro s t hstep
  have hinp := inp_eq_of_step_eq_next hstep
  rw [step_eq_exec_calcOp] at hstep
  obtain ⟨hports, -⟩ := exec_eq_next_cases_of_hasEncoding rfl hstep
  exact ⟨hinp, keepsTable_of_calcPorts_eq_ok hports, hinp ▸ hports, fun _ => inv_of_exec_of_hasEncoding rfl hstep⟩

end Machine

end Sys2Proof

/-!
PROOFS. The mask and the negator as arithmetic modulo a power of two (41_width_mask_unit.md R101 to R103,
46_negator_and_calc.md R202), and the sign interpreter and the flag derivation at the ends of their domains
(44_sign_interpreter.md R161, R164, 43_flag_derivation_unit.md R141, R142).
-/

namespace Sys2Proof

namespace Machine

/-- Settles O13: the returned value is a remainder modulo `2^width`, so it lies below `2^width`. -/
theorem maskCheckCannotFail : Obligations.MaskCheckCannotFail := by
  intro value width s
  refine ⟨_, exec_toWidth_eq_next value width s, ?_⟩
  rw [masked_toNat]
  exact Nat.le_sub_one_of_lt (Nat.mod_lt _ (Nat.two_pow_pos _))

/-- The mask leaves a value below `2^width` as it is (R103). -/
theorem masked_eq_self {value : U64} {width : U8} (h : value.toNat < 2 ^ width.toNat) :
    value &&& widthMask width = value :=
  BitVec.eq_of_toNat_eq ((masked_toNat value width).trans (Nat.mod_eq_of_lt h))

/-- Settles O14: masking is reduction modulo `2^width`, which no 64-bit value reaches from width 64 on. -/
theorem toWidthReducesModuloTwoToTheWidth : Obligations.ToWidthReducesModuloTwoToTheWidth := by
  intro value width s
  refine ⟨_, exec_toWidth_eq_next value width s, masked_toNat value width, fun h64 => ?full, fun h0 => ?zero⟩
  case full => exact masked_eq_self (toNat_lt_two_pow_of_le value h64)
  case zero =>
    apply BitVec.eq_of_toNat_eq
    rw [masked_toNat, h0, Nat.pow_zero, Nat.mod_one, BitVec.toNat_ofNat, Nat.zero_mod]

/-- Settles O15: a valid request's operands lie below `2^width`. -/
theorem validOperandsAreAlreadyMasked : Obligations.ValidOperandsAreAlreadyMasked := by
  intro left right width s hvalid
  obtain ⟨hl, hr, -, -⟩ := (requestValid_iff _ _ _).mp hvalid
  rw [exec_toWidth_eq_next, exec_toWidth_eq_next, masked_eq_self hl, masked_eq_self hr]
  exact ⟨rfl, rfl⟩

/-- Complement and increment give the 64-bit negation (R201). -/
theorem negate64_eq_neg (right : U64) : negate64 right = -right :=
  (BitVec.neg_eq_not_add right).symm

/-- The low `width` bits of a masked value are those of the value. -/
theorem setWidth_masked (value : U64) (width : U8) :
    (value &&& widthMask width).setWidth width.toNat = value.setWidth width.toNat := by
  apply BitVec.eq_of_toNat_eq
  rw [BitVec.toNat_setWidth, BitVec.toNat_setWidth, masked_toNat, Nat.mod_mod]

/-- Up to width 64 the negator negates the `width`-bit reading of its operand (R202). -/
theorem setWidth_masked_negate64 (right : U64) {width : U8} (h64 : width.toNat ≤ 64) :
    (negate64 right &&& widthMask width).setWidth width.toNat = -right.setWidth width.toNat := by
  rw [setWidth_masked, negate64_eq_neg, BitVec.setWidth_neg_of_le h64]

/-- Up to width 64 the negator's value is the negation modulo `2^width` (R202). -/
theorem toNat_masked_negate64 (right : U64) {width : U8} (h64 : width.toNat ≤ 64) :
    (negate64 right &&& widthMask width).toNat =
      (2 ^ width.toNat - right.toNat % 2 ^ width.toNat) % 2 ^ width.toNat := by
  have h := congrArg BitVec.toNat (setWidth_masked_negate64 right h64)
  rwa [BitVec.toNat_neg, BitVec.toNat_setWidth, BitVec.toNat_setWidth, masked_toNat, Nat.mod_mod,
    ← masked_toNat] at h

/-- Settles O17: the closed form below and from width 64, and half of `2^width` is its own complement to `2^width`. -/
theorem negateIsModularNegation : Obligations.NegateIsModularNegation := by
  intro right width s
  refine ⟨_, exec_negate_eq_next right width s, toNat_masked_negate64 right, fun h64 => ?full, fun h1 h64 hr => ?half⟩
  case full =>
    rw [masked_eq_self (toNat_lt_two_pow_of_le _ h64), negate64_eq_neg, BitVec.toNat_neg]
  case half =>
    apply BitVec.eq_of_toNat_eq
    have hpow := Nat.two_pow_pred_add_two_pow_pred h1
    have hpos := Nat.two_pow_pos (width.toNat - 1)
    have hlt : right.toNat < 2 ^ width.toNat := by omega
    have hsub : 2 ^ width.toNat - right.toNat = right.toNat := by omega
    rw [toNat_masked_negate64 right h64, Nat.mod_eq_of_lt hlt, hsub, Nat.mod_eq_of_lt hlt]

/-- Settles O25: the flags do not ask whether the result fits; bit `w − 1` is a digit of the number, and a number of
`2^w` or more is not 0. -/
theorem deriveFlagsReadsAWideResultLiterally : Obligations.DeriveFlagsReadsAWideResultLiterally := by
  intro result carry previousCarry width s h1 h64 hwide
  have hnegative : negativeFlag result width = decide (result.toNat / 2 ^ (width.toNat - 1) % 2 = 1) :=
    Nat.testBit_eq_decide_div_mod_eq
  have hzero : zeroFlag result = false := by
    refine decide_eq_false fun h => ?_
    rw [h] at hwide
    exact Nat.not_lt.mpr hwide (Nat.two_pow_pos _)
  have hoverflow : overflowFlag carry previousCarry = decide (carry ≠ previousCarry) := by
    cases carry <;> cases previousCarry <;> rfl
  rw [exec_deriveFlags_eq_next (deriveFlags_eq_ok result carry previousCarry width h1 h64) s, hnegative, hzero,
    hoverflow]

/-- The sign interpreter has no value at width 0 or above 64 (R164). -/
theorem asSigned_eq_error (value : U64) {width : U8} (h : width.toNat = 0 ∨ 64 < width.toNat) :
    asSigned value width = .error .unitWidthOutOfDomain := by
  rw [asSigned, if_pos ((outsideUnitDomain_iff width).mpr h)]

/-- Settles O30: the domain check stops the sign interpreter, and AS_SIGNED with it. -/
theorem asSignedFaultsOutsideItsWidths : Obligations.AsSignedFaultsOutsideItsWidths := by
  intro value width s h
  exact (State.returns_eq_fault_iff _ _ _).mpr (congrArg (Except.map UnitReturn.signed) (asSigned_eq_error value h))

/-- A value below `2^n` has no bit from `n` on. -/
theorem getLsbD_eq_false_of_toNat_lt {value : U64} {n : Nat} (h : value.toNat < 2 ^ n) (j : Nat) (hj : n ≤ j) :
    value.getLsbD j = false :=
  Nat.testBit_lt_two_pow (Nat.lt_of_lt_of_le h (Nat.pow_le_pow_right (by decide) hj))

/-- The low bits of a sign extension are the extended value (R164). -/
theorem setWidth_signExtend {w m : Nat} (x : BitVec w) (h : w ≤ m) : (x.signExtend m).setWidth w = x := by
  apply BitVec.eq_of_getLsbD_eq
  intro i hi
  rw [BitVec.getLsbD_setWidth, BitVec.getLsbD_signExtend]
  simp [hi, Nat.lt_of_lt_of_le hi h]

/-- The top bit of a value's `w`-bit reading is the value's bit `w − 1`. -/
theorem msb_setWidth_of_pos (value : U64) {w : Nat} (h : 0 < w) :
    (value.setWidth w).msb = value.getLsbD (w - 1) := by
  rw [BitVec.msb_setWidth, decide_eq_true h, Bool.true_and]

/-- The `w`-bit reading of a value below `2^w` is the value. -/
theorem toNat_setWidth_of_lt {value : U64} {w : Nat} (h : value.toNat < 2 ^ w) :
    (value.setWidth w).toNat = value.toNat := by
  rw [BitVec.toNat_setWidth, Nat.mod_eq_of_lt h]

/-- Settles O28: a value that fits its width is returned as its sign extension, which keeps the signed reading and the
low bits. -/
theorem asSignedIsSignExtensionOnBoundedValues : Obligations.AsSignedIsSignExtensionOnBoundedValues := by
  intro value width s h1 h64 hlt
  have hnat := toNat_setWidth_of_lt hlt
  refine ⟨_, exec_asSigned_eq_next (asSigned_of_fits value width h1 h64 (getLsbD_eq_false_of_toNat_lt hlt)) s,
    ?toInt, ?roundTrip⟩
  case toInt =>
    rw [BitVec.toInt_signExtend_of_le h64, BitVec.toInt_eq_msb_cond, msb_setWidth_of_pos value h1, hnat]
    split <;> simp
  case roundTrip =>
    rw [← BitVec.toNat_setWidth, setWidth_signExtend _ h64, hnat]

end Machine

end Sys2Proof

/-!
PROOFS. The bit-serial adder as native binary addition at the width (42_ripple_carry_adder.md R123, R125), and the laws
of its carry and overflow as arithmetic (43_flag_derivation_unit.md R145 to R147).
-/

namespace Sys2Proof

namespace Machine

/-- What native addition of two `w`-bit words gives in the terms of the adder (R125): the zero-extended sum, its sign
extension, its top bit, whether it is 0, signed overflow and carry out. -/
def nativeSum {w : Nat} (x y : BitVec w) : SumOutput :=
  { result := { unsigned := (x + y).setWidth 64, signed := (x + y).signExtend 64 }
    flags :=
      { negative := (x + y).msb
        zero := decide (x + y = 0#w)
        overflow := BitVec.saddOverflow x y
        carry := BitVec.uaddOverflow x y } }

section
variable {w : Nat} (x y : BitVec w)

@[simp] theorem nativeSum_unsigned : (nativeSum x y).result.unsigned = (x + y).setWidth 64 := rfl
@[simp] theorem nativeSum_signed : (nativeSum x y).result.signed = (x + y).signExtend 64 := rfl
@[simp] theorem nativeSum_negative : (nativeSum x y).flags.negative = (x + y).msb := rfl
@[simp] theorem nativeSum_zero : (nativeSum x y).flags.zero = decide (x + y = 0#w) := rfl
@[simp] theorem nativeSum_overflow : (nativeSum x y).flags.overflow = BitVec.saddOverflow x y := rfl
@[simp] theorem nativeSum_carry : (nativeSum x y).flags.carry = BitVec.uaddOverflow x y := rfl

end

/-- The carry into position `n` is the carry out of the native addition of the low `n` bits. -/
theorem carry_eq_uaddOverflow (left right : U64) (n : Nat) :
    BitVec.carry n left right false = BitVec.uaddOverflow (left.setWidth n) (right.setWidth n) := by
  simp [BitVec.carry, BitVec.uaddOverflow]

/-- The carries out of and into the top bit differ exactly when native addition overflows: both say that the operands
have one sign and the sum the other. -/
theorem carry_xor_carry_eq_saddOverflow (left right : U64) {n : Nat} (h1 : 1 ≤ n) (h64 : n ≤ 64) :
    (BitVec.carry n left right false ^^ BitVec.carry (n - 1) left right false) =
      BitVec.saddOverflow (left.setWidth n) (right.setWidth n) := by
  obtain ⟨m, rfl⟩ := Nat.exists_eq_add_of_le' h1
  rw [BitVec.saddOverflow_eq, ← BitVec.setWidth_add _ _ h64, msb_setWidth_of_pos _ h1, msb_setWidth_of_pos _ h1,
    msb_setWidth_of_pos _ h1, Nat.add_sub_cancel, BitVec.getLsbD_add h64, BitVec.carry_succ]
  cases left.getLsbD m <;> cases right.getLsbD m <;> cases BitVec.carry m left right false <;> rfl

/-- Zero extension loses no bit: the low `w` bits of the extended word are the word. -/
theorem setWidth_setWidth_64 {w : Nat} (x : BitVec w) (h64 : w ≤ 64) : (x.setWidth 64).setWidth w = x := by
  rw [BitVec.setWidth_setWidth_of_le _ h64, BitVec.setWidth_eq]

/-- A zero-extended word is 0 exactly when the word is. -/
theorem setWidth_64_eq_zero_iff {w : Nat} (x : BitVec w) (h64 : w ≤ 64) : x.setWidth 64 = 0#64 ↔ x = 0#w := by
  rw [BitVec.toNat_eq, BitVec.toNat_eq, BitVec.toNat_setWidth_of_le h64, BitVec.toNat_ofNat, BitVec.toNat_ofNat,
    Nat.zero_mod, Nat.zero_mod]

/-- The top bit of a word is bit `w − 1` of its zero extension. -/
theorem getLsbD_setWidth_64_eq_msb {w : Nat} (x : BitVec w) (h1 : 1 ≤ w) (h64 : w ≤ 64) :
    (x.setWidth 64).getLsbD (w - 1) = x.msb := by
  rw [← msb_setWidth_of_pos _ h1, setWidth_setWidth_64 x h64]

/-- The bit-serial adder gives what native addition of the `w`-bit readings gives (R125). -/
theorem aluAdd_eq_nativeSum (left right : U64) {width : U8} (h1 : 1 ≤ width.toNat) (h64 : width.toNat ≤ 64) :
    aluAdd left right width = .ok (nativeSum (left.setWidth width.toNat) (right.setWidth width.toNat)) := by
  rw [aluAdd_eq_ok left right width h1 h64, adderLoop_result _ _ _ h64, setWidth_setWidth_64 _ h64, overflowFlag,
    carry_xor_carry_eq_saddOverflow left right h1 h64, carry_eq_uaddOverflow, negativeFlag, bitAt,
    getLsbD_setWidth_64_eq_msb _ h1 h64, zeroFlag, decide_eq_decide.mpr (setWidth_64_eq_zero_iff _ h64), nativeSum]

/-- ALU_ADD returns the native sum at the width, and every other part of the state stands. -/
theorem exec_aluAdd_eq_nativeSum (left right : U64) {width : U8} (s : State) (h1 : 1 ≤ width.toNat)
    (h64 : width.toNat ≤ 64) :
    exec (.aluAdd left right width) s =
      .next { s with ret := .sum (nativeSum (left.setWidth width.toNat) (right.setWidth width.toNat)) } :=
  exec_aluAdd_eq_next (aluAdd_eq_nativeSum left right h1 h64) s

/-- Settles O19: the adder is the native sum, written out. -/
theorem bitSerialAdderEqualsNativeAddition : Obligations.BitSerialAdderEqualsNativeAddition :=
  fun left right _ s h1 h64 => exec_aluAdd_eq_nativeSum left right s h1 h64

section
variable {w : Nat} (x y : BitVec w)

/-- Carry out is an unsigned sum of `2^w` or more (R145). -/
theorem uaddOverflow_iff : BitVec.uaddOverflow x y = true ↔ 2 ^ w ≤ x.toNat + y.toNat :=
  decide_eq_true_iff

/-- Signed overflow is a signed sum outside the `w`-bit range (R146). -/
theorem saddOverflow_iff_toInt :
    BitVec.saddOverflow x y = true ↔
      x.toInt + y.toInt < -2 ^ (w - 1) ∨ 2 ^ (w - 1) - 1 < x.toInt + y.toInt := by
  rw [BitVec.saddOverflow, Bool.or_eq_true, decide_eq_true_eq, decide_eq_true_eq]
  omega

/-- The signed reading subtracts `2^w` from a word whose unsigned reading is `2^(w−1)` or more. -/
theorem toInt_eq_ite_half :
    x.toInt = (x.toNat : Int) - (if 2 ^ (w - 1) ≤ x.toNat then 2 ^ w else 0) := by
  rw [BitVec.toInt_eq_msb_cond, BitVec.msb_eq_decide]
  simp only [decide_eq_true_eq]
  split <;> simp

/-- Signed overflow on the unsigned readings: both lie below half of `2^w` and their sum does not, or neither does and
their sum stays below three halves. -/
theorem saddOverflow_iff_toNat (h1 : 1 ≤ w) :
    BitVec.saddOverflow x y = true ↔
      (x.toNat < 2 ^ (w - 1) ∧ y.toNat < 2 ^ (w - 1) ∧ 2 ^ (w - 1) ≤ x.toNat + y.toNat) ∨
        (2 ^ (w - 1) ≤ x.toNat ∧ 2 ^ (w - 1) ≤ y.toNat ∧ x.toNat + y.toNat < 3 * 2 ^ (w - 1)) := by
  have hpow := Nat.two_pow_pred_add_two_pow_pred h1
  have hcast : (2 : Int) ^ (w - 1) = ((2 ^ (w - 1) : Nat) : Int) := by norm_cast
  have hcast' : (2 : Int) ^ w = ((2 ^ w : Nat) : Int) := by norm_cast
  have hx := x.isLt
  have hy := y.isLt
  rw [saddOverflow_iff_toInt, toInt_eq_ite_half x, toInt_eq_ite_half y, hcast, hcast']
  generalize 2 ^ (w - 1) = half at *
  generalize 2 ^ w = full at *
  split_ifs <;> omega

/-- A sum is 0 exactly when the unsigned readings add up to 0 or to `2^w`. -/
theorem add_eq_zero_iff_toNat : x + y = 0#w ↔ x.toNat + y.toNat = 0 ∨ x.toNat + y.toNat = 2 ^ w := by
  have hx := x.isLt
  have hy := y.isLt
  rw [BitVec.toNat_eq, BitVec.toNat_add, BitVec.toNat_ofNat, Nat.zero_mod, ← Nat.dvd_iff_mod_eq_zero]
  constructor
  · rintro ⟨k, hk⟩
    obtain rfl | rfl | hk2 : k = 0 ∨ k = 1 ∨ 2 ≤ k := by omega
    · exact .inl hk
    · exact .inr (hk.trans (Nat.mul_one _))
    · have := Nat.mul_le_mul_left (2 ^ w) hk2
      omega
  · rintro (h | h)
    · exact ⟨0, h⟩
    · exact ⟨1, h.trans (Nat.mul_one _).symm⟩

end

/-- Settles O20: the laws of the native sum, on the `w`-bit readings of the operands. -/
theorem aluAddArithmeticLaws : Obligations.AluAddArithmeticLaws := by
  intro left right width s h1 h64
  refine ⟨_, exec_aluAdd_eq_nativeSum left right s h1 h64, ?unsigned, ?carry, saddOverflow_iff_toInt _ _⟩
  case unsigned =>
    rw [nativeSum_unsigned, BitVec.toNat_setWidth_of_le h64, BitVec.toNat_add, BitVec.toNat_setWidth,
      BitVec.toNat_setWidth]
  case carry =>
    rw [nativeSum_carry, uaddOverflow_iff, BitVec.toNat_setWidth, BitVec.toNat_setWidth]

/-- Values that agree below bit `w` have one `w`-bit reading. -/
theorem setWidth_eq_of_getLsbD_eq {value value' : U64} {w : Nat}
    (h : ∀ i, i < w → value.getLsbD i = value'.getLsbD i) : value.setWidth w = value'.setWidth w := by
  apply BitVec.eq_of_getLsbD_eq
  intro i hi
  rw [BitVec.getLsbD_setWidth, BitVec.getLsbD_setWidth, h i hi]

/-- Settles O21: inside the unit domain the adder reads the `w`-bit readings, and outside it no operand at all. -/
theorem aluAddIgnoresBitsAboveTheWidth : Obligations.AluAddIgnoresBitsAboveTheWidth := by
  intro left right left' right' width s hleft hright
  by_cases hdomain : width.toNat = 0 ∨ 64 < width.toNat
  · rw [exec_aluAdd_eq_fault (aluAdd_eq_error left right hdomain),
      exec_aluAdd_eq_fault (aluAdd_eq_error left' right' hdomain)]
  · have h1 : 1 ≤ width.toNat := by omega
    have h64 : width.toNat ≤ 64 := by omega
    rw [exec_aluAdd_eq_nativeSum left right s h1 h64, exec_aluAdd_eq_nativeSum left' right' s h1 h64,
      setWidth_eq_of_getLsbD_eq hleft, setWidth_eq_of_getLsbD_eq hright]

/-- Settles O22: each corner case is arithmetic on the two unsigned readings. -/
theorem flagCornerCases : Obligations.FlagCornerCases := by
  intro left right width s h1 h64
  refine ⟨_, exec_aluAdd_eq_nativeSum left right s h1 h64, ?_⟩
  have hpow := Nat.two_pow_pred_add_two_pow_pred h1
  have hpos := Nat.two_pow_pos width.toNat
  simp only [nativeSum_zero, nativeSum_negative, nativeSum_carry, nativeSum_overflow, decide_eq_true_eq,
    ← BitVec.toNat_setWidth]
  have hx := (left.setWidth width.toNat).isLt
  have hy := (right.setWidth width.toNat).isLt
  generalize left.setWidth width.toNat = x at *
  generalize right.setWidth width.toNat = y at *
  refine ⟨?negative, ?carry, ?overflow, ?widthOne⟩
  case negative =>
    intro h
    rw [h, BitVec.msb_zero]
  case carry =>
    rw [add_eq_zero_iff_toNat, uaddOverflow_iff]
    omega
  case overflow =>
    rw [add_eq_zero_iff_toNat, saddOverflow_iff_toNat x y h1]
    omega
  case widthOne =>
    intro hone
    have hhalf : 2 ^ (width.toNat - 1) = 1 := by rw [hone, Nat.sub_self, Nat.pow_zero]
    rw [Bool.eq_iff_iff, saddOverflow_iff_toNat x y h1, uaddOverflow_iff]
    omega

/-- From width 2 on every combination of carry and overflow occurs (R147): at `0 + 0`, at `2^(w−1) − 1 + 1`, at
`2^w − 1 + 2^w − 1` and at `2^(w−1) + 2^(w−1)`. -/
theorem exists_uaddOverflow_saddOverflow {w : Nat} (h2 : 2 ≤ w) (carry overflow : Bool) :
    ∃ x y : BitVec w,
      (BitVec.uaddOverflow x y = true ↔ carry = true) ∧ (BitVec.saddOverflow x y = true ↔ overflow = true) := by
  have h1 : 0 < w := by omega
  have hpow := Nat.two_pow_pred_add_two_pow_pred h1
  have hhalf : 2 ^ 1 ≤ 2 ^ (w - 1) := Nat.pow_le_pow_right (by decide) (by omega)
  have hmin : (BitVec.intMin w).toNat = 2 ^ (w - 1) := by
    rw [BitVec.toNat_intMin, Nat.mod_eq_of_lt (by omega)]
  have hone : (1#w).toNat = 1 := by rw [BitVec.toNat_ofNat, Nat.mod_eq_of_lt (by omega)]
  simp only [uaddOverflow_iff, saddOverflow_iff_toNat _ _ h1]
  match carry, overflow with
  | false, false =>
    refine ⟨0#w, 0#w, ?_⟩
    simp only [BitVec.toNat_ofNat, Nat.zero_mod, Bool.false_eq_true, iff_false]
    omega
  | false, true =>
    refine ⟨BitVec.intMax w, 1#w, ?_⟩
    simp only [BitVec.toNat_intMax, hone, Bool.false_eq_true, iff_false, iff_true]
    omega
  | true, false =>
    refine ⟨BitVec.allOnes w, BitVec.allOnes w, ?_⟩
    simp only [BitVec.toNat_allOnes, Bool.false_eq_true, iff_false, iff_true]
    omega
  | true, true =>
    refine ⟨BitVec.intMin w, BitVec.intMin w, ?_⟩
    simp only [hmin, iff_true]
    omega

/-- Settles O23: the zero extensions of the two words that show a combination are operands that show it. -/
theorem carryAndOverflowAreIndependent : Obligations.CarryAndOverflowAreIndependent := by
  intro width carry overflow s h2 h64
  obtain ⟨x, y, hcarry, hoverflow⟩ := exists_uaddOverflow_saddOverflow h2 carry overflow
  refine ⟨x.setWidth 64, y.setWidth 64, nativeSum x y, ?_, Bool.eq_iff_iff.mpr hcarry, Bool.eq_iff_iff.mpr hoverflow⟩
  rw [exec_aluAdd_eq_nativeSum _ _ s (by omega) h64, setWidth_setWidth_64 x h64, setWidth_setWidth_64 y h64]

end Machine

end Sys2Proof

/-!
PROOFS. CALC of a valid request as native addition and subtraction (46_negator_and_calc.md R203 to R206), and the laws of
its two channels (R207 to R211): the carry and the overflow of `x + (−y)` against those of the true difference.
-/

namespace Sys2Proof

namespace Machine

/-- CALC of a valid request drives the native sums of the `w`-bit readings: of the operands, and of `left` and the
negation of `right` (R203, R204). -/
theorem exec_calcOp_eq_nativeSum {left right : U64} {width : U8} (h : requestValid left right width = true)
    (s : State) :
    exec (.calcOp left right width) s = .next
      { inp := ⟨left, right, width⟩
        out := (Ports.okStatus.driveAdd (nativeSum (left.setWidth width.toNat) (right.setWidth width.toNat))).driveSub
          (nativeSum (left.setWidth width.toNat) (-right.setWidth width.toNat))
        ret := .idle } := by
  obtain ⟨-, -, h8, h64⟩ := (requestValid_iff _ _ _).mp h
  have h1 : 1 ≤ width.toNat := by omega
  obtain ⟨a, b, ha, hb, hports⟩ := calcPorts_of_requestValid h
  rw [aluAdd_eq_nativeSum _ _ h1 h64] at ha hb
  rw [setWidth_masked_negate64 right h64] at hb
  rw [exec_calcOp_eq_next hports s, Except.ok.inj ha, Except.ok.inj hb]

/-- The native sum with a negation has the result of the native difference, and is 0 on equal words only. -/
theorem nativeSum_neg {w : Nat} (x y : BitVec w) :
    nativeSum x (-y) =
      { result := { unsigned := (x - y).setWidth 64, signed := (x - y).signExtend 64 }
        flags :=
          { negative := (x - y).msb
            zero := decide (x = y)
            overflow := BitVec.saddOverflow x (-y)
            carry := BitVec.uaddOverflow x (-y) } } := by
  have hzero : x - y = 0#w ↔ x = y := by rw [BitVec.sub_eq_iff_eq_add, BitVec.zero_add]
  rw [nativeSum, ← BitVec.sub_eq_add_neg, decide_eq_decide.mpr hzero]

/-- Settles O39: the two native sums on the ports, the second one read as a difference. -/
theorem calcIsNativeAddAndSubtract : Obligations.CalcIsNativeAddAndSubtract := by
  intro left right width s x y hvalid hx hy
  rw [exec_calcOp_eq_nativeSum hvalid s, ← hx, ← hy, nativeSum_neg]
  rfl

/-- A word's sign extension as an integer, from its zero extension as a number (R161). -/
theorem toInt_signExtend_64 {w : Nat} (x : BitVec w) (h64 : w ≤ 64) :
    (x.signExtend 64).toInt =
      ((x.setWidth 64).toNat : Int) - (if 2 ^ (w - 1) ≤ (x.setWidth 64).toNat then 2 ^ w else 0) := by
  rw [BitVec.toInt_signExtend_of_le h64, BitVec.toNat_setWidth_of_le h64, toInt_eq_ite_half]

/-- Settles O40: the laws of the native sum of the operands, which are their own `w`-bit readings. -/
theorem addChannelLaws : Obligations.AddChannelLaws := by
  intro left right width s hvalid
  obtain ⟨hl, hr, h8, h64⟩ := (requestValid_iff _ _ _).mp hvalid
  refine ⟨_, _, _, exec_calcOp_eq_nativeSum hvalid s, rfl, ?unsigned, rfl, toInt_signExtend_64 _ h64, ?negative,
    ?zero, ?carry, ?overflow⟩
  case unsigned =>
    rw [nativeSum_unsigned, BitVec.toNat_setWidth_of_le h64, BitVec.toNat_add, toNat_setWidth_of_lt hl,
      toNat_setWidth_of_lt hr]
  case negative =>
    exact congrArg some (getLsbD_setWidth_64_eq_msb _ (by omega) h64).symm
  case zero =>
    exact congrArg some (decide_eq_decide.mpr (setWidth_64_eq_zero_iff _ h64).symm)
  case carry =>
    rw [← toNat_setWidth_of_lt hl, ← toNat_setWidth_of_lt hr]
    rfl
  case overflow =>
    exact congrArg some (Bool.eq_iff_iff.mpr ((saddOverflow_iff_toInt _ _).trans decide_eq_true_iff.symm))

/-- The native difference as an integer modulo `2^w` (R208). -/
theorem toNat_sub_eq_emod {w : Nat} (x y : BitVec w) :
    ((x - y).toNat : Int) = ((x.toNat : Int) - y.toNat) % 2 ^ w := by
  have hy := y.isLt
  rw [BitVec.toNat_sub]
  push_cast [Nat.cast_sub hy.le]
  rw [show (2 : Int) ^ w - y.toNat + x.toNat = x.toNat - y.toNat + 2 ^ w by ring, Int.add_emod_right]

/-- Values below `2^w` are equal exactly when their `w`-bit readings are. -/
theorem setWidth_eq_iff_of_lt {value value' : U64} {w : Nat} (h : value.toNat < 2 ^ w) (h' : value'.toNat < 2 ^ w) :
    value.setWidth w = value'.setWidth w ↔ value = value' := by
  rw [BitVec.toNat_eq, toNat_setWidth_of_lt h, toNat_setWidth_of_lt h', ← BitVec.toNat_eq]

/-- Settles O41: the laws of the native difference of the operands. -/
theorem subChannelResultLaws : Obligations.SubChannelResultLaws := by
  intro left right width s hvalid
  obtain ⟨hl, hr, h8, h64⟩ := (requestValid_iff _ _ _).mp hvalid
  have hcalc := exec_calcOp_eq_nativeSum hvalid s
  rw [nativeSum_neg] at hcalc
  refine ⟨_, _, _, hcalc, rfl, ?unsigned, rfl, toInt_signExtend_64 _ h64, ?negative, ?zero⟩
  case unsigned =>
    rw [BitVec.toNat_setWidth_of_le h64, toNat_sub_eq_emod, toNat_setWidth_of_lt hl, toNat_setWidth_of_lt hr]
  case negative =>
    exact congrArg some (getLsbD_setWidth_64_eq_msb _ (by omega) h64).symm
  case zero =>
    exact congrArg some (decide_eq_decide.mpr (setWidth_eq_iff_of_lt hl hr))

section
variable {w : Nat} (x y : BitVec w)

/-- Adding a negation carries exactly when there is no borrow and something is subtracted: `−0` is 0 and not `2^w`
(R209). -/
theorem uaddOverflow_neg_iff : BitVec.uaddOverflow x (-y) = true ↔ y.toNat ≠ 0 ∧ y.toNat ≤ x.toNat := by
  have hx := x.isLt
  have hy := y.isLt
  rw [uaddOverflow_iff, BitVec.toNat_neg]
  by_cases hzero : y.toNat = 0
  · rw [hzero, Nat.sub_zero, Nat.mod_self]
    omega
  · rw [Nat.mod_eq_of_lt (by omega)]
    omega

/-- Signed overflow of a difference is a signed difference outside the `w`-bit range. -/
theorem ssubOverflow_iff_toInt :
    BitVec.ssubOverflow x y = true ↔
      x.toInt - y.toInt < -2 ^ (w - 1) ∨ 2 ^ (w - 1) - 1 < x.toInt - y.toInt := by
  rw [BitVec.ssubOverflow, Bool.or_eq_true, decide_eq_true_eq, decide_eq_true_eq]
  omega

/-- Adding 0 does not overflow. -/
theorem saddOverflow_zero : BitVec.saddOverflow x 0#w = false := by
  have hlt := BitVec.toInt_lt (x := x)
  have hle := BitVec.le_toInt x
  rw [Bool.eq_false_iff, ne_eq, saddOverflow_iff_toInt, BitVec.toInt_zero]
  omega

variable {y} in
/-- But for `2^(w−1)`, adding the negation overflows exactly when the difference does (R210). -/
theorem saddOverflow_neg_of_ne_intMin (hy : y ≠ BitVec.intMin w) :
    BitVec.saddOverflow x (-y) = BitVec.ssubOverflow x y := by
  rw [Bool.eq_iff_iff, saddOverflow_iff_toInt, ssubOverflow_iff_toInt, BitVec.toInt_neg_of_ne_intMin hy,
    ← Int.sub_eq_add_neg]

/-- `2^(w−1)` is its own negation, and adding it overflows on the negative words (R210). -/
theorem saddOverflow_neg_intMin (h1 : 1 ≤ w) : BitVec.saddOverflow x (-BitVec.intMin w) = x.msb := by
  have hlt := BitVec.toInt_lt (x := x)
  rw [BitVec.neg_intMin, Bool.eq_iff_iff, saddOverflow_iff_toInt, BitVec.toInt_intMin_of_pos h1, BitVec.msb_eq_toInt,
    decide_eq_true_eq]
  omega

/-- Subtracting `2^(w−1)`, the least word, overflows on the other words (R210). -/
theorem ssubOverflow_intMin (h1 : 1 ≤ w) : BitVec.ssubOverflow x (BitVec.intMin w) = !x.msb := by
  have hle := BitVec.le_toInt x
  rw [Bool.eq_iff_iff, ssubOverflow_iff_toInt, BitVec.toInt_intMin_of_pos h1, BitVec.msb_eq_toInt, Bool.not_eq_true',
    decide_eq_false_iff_not]
  omega

end

/-- The `w`-bit reading of a value below `2^w` is the least word exactly when the value is `2^(w−1)`. -/
theorem setWidth_eq_intMin_iff {value : U64} {w : Nat} (h1 : 1 ≤ w) (h : value.toNat < 2 ^ w) :
    value.setWidth w = BitVec.intMin w ↔ value.toNat = 2 ^ (w - 1) := by
  have hlt : 2 ^ (w - 1) < 2 ^ w := Nat.pow_lt_pow_right (by decide) (by omega)
  rw [BitVec.toNat_eq, toNat_setWidth_of_lt h, BitVec.toNat_intMin, Nat.mod_eq_of_lt hlt]

/-- Settles O42: the carry of the native sum with the negation, on the operands themselves. -/
theorem subCarryLaw : Obligations.SubCarryLaw := by
  intro left right width s hvalid
  obtain ⟨hl, hr, -, -⟩ := (requestValid_iff _ _ _).mp hvalid
  refine ⟨_, exec_calcOp_eq_nativeSum hvalid s, congrArg some (Bool.eq_iff_iff.mpr ?_)⟩
  rw [nativeSum_carry, uaddOverflow_neg_iff, toNat_setWidth_of_lt hl, toNat_setWidth_of_lt hr, decide_eq_true_eq,
    ne_eq, ne_eq, BitVec.toNat_eq, BitVec.toNat_ofNat, Nat.zero_mod]

/-- Settles O43: the overflow of the native sum with the negation is that of the difference, but for `2^(w−1)`, where
both are known from the top bit of `left`. -/
theorem subOverflowLaw : Obligations.SubOverflowLaw := by
  intro left right width s difference hvalid hdifference
  obtain ⟨-, hr, h8, -⟩ := (requestValid_iff _ _ _).mp hvalid
  have h1 : 1 ≤ width.toNat := by omega
  have htrue : decide (difference < -2 ^ (width.toNat - 1) ∨ 2 ^ (width.toNat - 1) - 1 < difference) =
      BitVec.ssubOverflow (left.setWidth width.toNat) (right.setWidth width.toNat) := by
    rw [Bool.eq_iff_iff, decide_eq_true_eq, ssubOverflow_iff_toInt, hdifference]
  rw [htrue, ← setWidth_eq_intMin_iff h1 hr, ne_eq, ← setWidth_eq_intMin_iff h1 hr]
  refine ⟨_, exec_calcOp_eq_nativeSum hvalid s, fun hzero => ?zero, fun hmin => ?half, fun hmin => ?other⟩
  case zero =>
    rw [hzero, BitVec.setWidth_zero, BitVec.neg_zero]
    exact congrArg some (saddOverflow_zero _)
  case half =>
    rw [hmin, ssubOverflow_intMin _ h1, Bool.not_not, ← msb_setWidth_of_pos left h1, and_self]
    exact congrArg some (saddOverflow_neg_intMin _ h1)
  case other =>
    exact congrArg some (saddOverflow_neg_of_ne_intMin _ hmin)

/-- Subtracting a word from itself does not overflow. -/
theorem ssubOverflow_self {w : Nat} (x : BitVec w) : BitVec.ssubOverflow x x = false := by
  have hpos : (0 : Int) < 2 ^ (w - 1) := by positivity
  rw [Bool.eq_false_iff, ne_eq, ssubOverflow_iff_toInt, Int.sub_self]
  omega

/-- Adding a word's own negation overflows at `2^(w−1)` only (R211). -/
theorem saddOverflow_neg_self {w : Nat} (x : BitVec w) (h1 : 1 ≤ w) :
    BitVec.saddOverflow x (-x) = decide (x = BitVec.intMin w) := by
  by_cases hx : x = BitVec.intMin w
  · rw [hx, saddOverflow_neg_intMin _ h1, BitVec.msb_intMin, decide_eq_true rfl]
    exact decide_eq_true h1
  · rw [saddOverflow_neg_of_ne_intMin x hx, ssubOverflow_self, decide_eq_false hx]

/-- Doubling a word carries out its top bit (R211). -/
theorem uaddOverflow_self {w : Nat} (x : BitVec w) (h1 : 1 ≤ w) : BitVec.uaddOverflow x x = x.msb := by
  have hpow := Nat.two_pow_pred_add_two_pow_pred h1
  rw [Bool.eq_iff_iff, uaddOverflow_iff, BitVec.msb_eq_decide, decide_eq_true_eq]
  omega

/-- Settles O44: the native sums of a word with its negation, which is 0, and with itself. -/
theorem sameValueOnBothOperands : Obligations.SameValueOnBothOperands := by
  intro x width s hvalid
  obtain ⟨hx, -, h8, h64⟩ := (requestValid_iff _ _ _).mp hvalid
  have h1 : 1 ≤ width.toNat := by omega
  have hcalc := exec_calcOp_eq_nativeSum hvalid s
  rw [nativeSum_neg, BitVec.sub_self] at hcalc
  refine ⟨_, _, hcalc, ?difference, congrArg some (decide_eq_true rfl), congrArg some BitVec.msb_zero, ?subCarry,
    ?subOverflow, rfl, ?sum, ?addCarry⟩
  case difference => exact congrArg some (BitVec.setWidth_zero _ _)
  case subCarry =>
    refine congrArg some (Bool.eq_iff_iff.mpr ?_)
    rw [uaddOverflow_neg_iff, toNat_setWidth_of_lt hx, decide_eq_true_eq, ne_eq, ne_eq, BitVec.toNat_eq,
      BitVec.toNat_ofNat, Nat.zero_mod, and_iff_left le_rfl]
  case subOverflow =>
    refine congrArg some ((saddOverflow_neg_self _ h1).trans ?_)
    exact decide_eq_decide.mpr (setWidth_eq_intMin_iff h1 hx)
  case sum =>
    rw [nativeSum_unsigned, BitVec.toNat_setWidth_of_le h64, BitVec.toNat_add, toNat_setWidth_of_lt hx, Nat.two_mul]
  case addCarry =>
    exact congrArg some ((uaddOverflow_self _ h1).trans (msb_setWidth_of_pos x h1))

end Machine

end Sys2Proof
